-- ==== Sys2Proof/Word.lean ====
section
/-! DEFINITION. The widths of 00_scope.md R8 and R12: bytes, 16-bit words and 3-bit register fields. -/

namespace Sys2Proof

/-- An 8-bit unsigned value: a general register, a memory byte, an immediate (R12). -/
abbrev Byte := BitVec 8

/-- A 16-bit unsigned value: PC, SP, F, S, HL and addresses (R12). -/
abbrev Word := BitVec 16

/-- A 3-bit register field; the values 6 and 7 name no register (R8, R23). -/
abbrev RegIx := BitVec 3

end Sys2Proof
end

