-- ==== Sys2Proof/Syntax.lean ====
section
/-! DEFINITION. The instruction set: one constructor per row of spec/opcode_table.json (30_encoding.md R89). -/

namespace Sys2Proof

/-- An instruction with its operand bytes. Ignored fields (30_encoding.md R88) are not kept: an encoding that differs only
there executes the same (R92). A register operand is the raw 3-bit field, which may be 6 or 7 (R82). -/
inductive Instr
  | nop
  | movImm (r : RegIx) (imm : Byte)
  | movReg (r sel : RegIx)
  | ldrAbs (r : RegIx) (addr : Word)
  | ldrHl (r : RegIx)
  | strAbs (r : RegIx) (addr : Word)
  | strHl (r : RegIx)
  | lhl (lo hi : Byte)
  | pushImm (imm : Byte)
  | pushReg (r : RegIx)
  | pop (r : RegIx)
  | jmpAbs (addr : Word)
  | jmpHl
  | jzAbs (addr : Word)
  | jzHl
  | addImm (r : RegIx) (imm : Byte)
  | addReg (r sel : RegIx)
  | adcImm (r : RegIx) (imm : Byte)
  | adcReg (r sel : RegIx)
  | cmpImm (r : RegIx) (imm : Byte)
  | cmpReg (r sel : RegIx)
  | subImm (r : RegIx) (imm : Byte)
  | subReg (r sel : RegIx)
  | nandImm (r : RegIx) (imm : Byte)
  | nandReg (r sel : RegIx)
  | norImm (r : RegIx) (imm : Byte)
  | norReg (r sel : RegIx)
  | hlt
deriving DecidableEq, Repr

end Sys2Proof
end

