-- ==== Sys2Proof/WellFormed.lean ====
section
/-! DEFINITION. Well-formed instructions: those whose accessed register fields name one of the six registers
(10_state.md R23, 30_encoding.md R91). DESIGN CHOICE (log 18): an ill-formed one still decodes
and still runs, and faults at the access. -/

namespace Sys2Proof

/-- The field names a register: "0–5 valid for this register file" (R23). -/
abbrev RegIx.named (r : RegIx) : Bool := decide (r.toNat < 6)

/-- The register fields an instruction ACCESSES, r before sel (the table of 10_state.md R22). -/
def Instr.accessed : Instr → List RegIx
  | .nop | .lhl _ _ | .pushImm _ | .jmpAbs _ | .jmpHl | .jzAbs _ | .jzHl | .hlt => []
  | .movImm r _ | .ldrAbs r _ | .ldrHl r | .strAbs r _ | .strHl r | .pushReg r | .pop r => [r]
  | .addImm r _ | .adcImm r _ | .cmpImm r _ | .subImm r _ | .nandImm r _ | .norImm r _ => [r]
  | .movReg r sel => [r, sel]
  | .addReg r sel | .adcReg r sel | .cmpReg r sel | .subReg r sel | .nandReg r sel | .norReg r sel => [r, sel]

/-- Every register the instruction accesses exists (R91). -/
def Instr.wellFormed (i : Instr) : Bool := i.accessed.all (fun r => RegIx.named r)

end Sys2Proof
end

