-- ==== Sys2Proof/Decode.lean ====
section
/-! DEFINITION. The decoder of 30_encoding.md R81, R82, R84, R86 and R89, and the encoder (R83, R93). -/

namespace Sys2Proof

/-- "A closed enumerated variant type with exactly 16 members" (00_scope.md R3, 40_execution_model.md R118). -/
inductive Opcode
  | nop | mov | ldr | str | lhl | push | pop | jmp | jz | add | adc | cmp | sub | nand | nor | hlt
deriving DecidableEq, Repr

/-! ### The fields of an opcode byte (R81) -/

/-- `opcode = (byte >> 4) & 0xF` (R81). -/
def opcodeField (b : Byte) : BitVec 4 := b.extractLsb' 4 4

/-- `mode_bit = byte & 0x8 != 0` (R81). -/
def modeField (b : Byte) : Bool := b.getLsbD 3

/-- `register_index = byte & 0x7` (R81); also the selector of an operand byte, whose bits 7:3 are ignored (R84). -/
def regField (b : Byte) : RegIx := b.extractLsb' 0 3

/-- The 16 opcode values (R89). The four bits are matched in full, so there is no default arm (R90, C4). -/
def Opcode.ofBits (o : BitVec 4) : Opcode :=
  match o.getLsbD 3, o.getLsbD 2, o.getLsbD 1, o.getLsbD 0 with
  | false, false, false, false => .nop
  | false, false, false, true => .mov
  | false, false, true, false => .ldr
  | false, false, true, true => .str
  | false, true, false, false => .lhl
  | false, true, false, true => .push
  | false, true, true, false => .pop
  | false, true, true, true => .jmp
  | true, false, false, false => .jz
  | true, false, false, true => .add
  | true, false, true, false => .adc
  | true, false, true, true => .cmp
  | true, true, false, false => .sub
  | true, true, false, true => .nand
  | true, true, true, false => .nor
  | true, true, true, true => .hlt

/-- The opcode value of an operation (R86's table). -/
def Opcode.bits : Opcode → BitVec 4
  | .nop => 0x0#4
  | .mov => 0x1#4
  | .ldr => 0x2#4
  | .str => 0x3#4
  | .lhl => 0x4#4
  | .push => 0x5#4
  | .pop => 0x6#4
  | .jmp => 0x7#4
  | .jz => 0x8#4
  | .add => 0x9#4
  | .adc => 0xA#4
  | .cmp => 0xB#4
  | .sub => 0xC#4
  | .nand => 0xD#4
  | .nor => 0xE#4
  | .hlt => 0xF#4

/-! ### Operand bytes (R84 to R86) -/

/-- The two bytes of an address, low byte first: `zext_16(lo) | (zext_16(hi) << 8)` (R56, R113). -/
def wordOfBytes (lo hi : Byte) : Word := lo.setWidth 16 ||| (hi.setWidth 16 <<< 8)

/-- Bits 7:0 of an address. -/
def lowByte (w : Word) : Byte := w.extractLsb' 0 8

/-- Bits 15:8 of an address. -/
def highByte (w : Word) : Byte := w.extractLsb' 8 8

/-- How many operand bytes follow, by opcode and M alone (R86). -/
def Opcode.operandBytes (o : Opcode) (m : Bool) : Nat :=
  match o with
  | .nop | .pop | .hlt => 0
  | .lhl => 2
  | .mov | .add | .adc | .cmp | .sub | .nand | .nor => 1
  | .push => if m then 0 else 1
  | .ldr | .str | .jmp | .jz => if m then 0 else 2

/-- How many operand bytes follow this opcode byte (R87: known from the opcode byte alone). -/
def operandCount (op : Byte) : Nat := (Opcode.ofBits (opcodeField op)).operandBytes (modeField op)

/-- The instruction of an opcode byte and the operand bytes after it (R89). It is total; a form that has no such operand byte
does not look at `b1` or `b2`. -/
def decodeFields (op b1 b2 : Byte) : Instr :=
  let m := modeField op
  let r := regField op
  match Opcode.ofBits (opcodeField op) with
  | .nop => .nop
  | .mov => if m then .movReg r (regField b1) else .movImm r b1
  | .ldr => if m then .ldrHl r else .ldrAbs r (wordOfBytes b1 b2)
  | .str => if m then .strHl r else .strAbs r (wordOfBytes b1 b2)
  | .lhl => .lhl b1 b2
  | .push => if m then .pushReg r else .pushImm b1
  | .pop => .pop r
  | .jmp => if m then .jmpHl else .jmpAbs (wordOfBytes b1 b2)
  | .jz => if m then .jzHl else .jzAbs (wordOfBytes b1 b2)
  | .add => if m then .addReg r (regField b1) else .addImm r b1
  | .adc => if m then .adcReg r (regField b1) else .adcImm r b1
  | .cmp => if m then .cmpReg r (regField b1) else .cmpImm r b1
  | .sub => if m then .subReg r (regField b1) else .subImm r b1
  | .nand => if m then .nandReg r (regField b1) else .nandImm r b1
  | .nor => if m then .norReg r (regField b1) else .norImm r b1
  | .hlt => .hlt

/-- Why a list of bytes holds no whole instruction. No byte VALUE is rejected (R82, R90): only bytes can be missing. -/
inductive DecodeError
  /-- There is no opcode byte. -/
  | noOpcodeByte
  /-- The form needs `needed` operand bytes and only `present` follow. -/
  | missingOperandBytes (opcode : Opcode) (needed present : Nat)
deriving DecidableEq, Repr

/-- Decodes the first instruction of a list of bytes and answers it with the bytes after it (R80, R86). -/
def decode : List Byte → Except DecodeError (Instr × List Byte)
  | [] => .error .noOpcodeByte
  | op :: rest =>
    if operandCount op ≤ rest.length then
      .ok (decodeFields op (rest.getD 0 0) (rest.getD 1 0), rest.drop (operandCount op))
    else .error (.missingOperandBytes (Opcode.ofBits (opcodeField op)) (operandCount op) rest.length)

/-! ### Encoding (R83, R93) -/

/-- `byte = (opcode << 4) | (M << 3) | r` (R83). -/
def opcodeByte (o : Opcode) (m : Bool) (r : RegIx) : Byte :=
  (o.bits.setWidth 8 <<< 4) ||| ((BitVec.ofBool m).setWidth 8 <<< 3) ||| r.setWidth 8

/-- The canonical encoding (R92): ignored fields are zero, and an address has its low byte first (R56). -/
def encode : Instr → List Byte
  | .nop => [opcodeByte .nop false 0]
  | .movImm r imm => [opcodeByte .mov false r, imm]
  | .movReg r sel => [opcodeByte .mov true r, sel.setWidth 8]
  | .ldrAbs r a => [opcodeByte .ldr false r, lowByte a, highByte a]
  | .ldrHl r => [opcodeByte .ldr true r]
  | .strAbs r a => [opcodeByte .str false r, lowByte a, highByte a]
  | .strHl r => [opcodeByte .str true r]
  | .lhl lo hi => [opcodeByte .lhl false 0, lo, hi]
  | .pushImm imm => [opcodeByte .push false 0, imm]
  | .pushReg r => [opcodeByte .push true r]
  | .pop r => [opcodeByte .pop false r]
  | .jmpAbs a => [opcodeByte .jmp false 0, lowByte a, highByte a]
  | .jmpHl => [opcodeByte .jmp true 0]
  | .jzAbs a => [opcodeByte .jz false 0, lowByte a, highByte a]
  | .jzHl => [opcodeByte .jz true 0]
  | .addImm r imm => [opcodeByte .add false r, imm]
  | .addReg r sel => [opcodeByte .add true r, sel.setWidth 8]
  | .adcImm r imm => [opcodeByte .adc false r, imm]
  | .adcReg r sel => [opcodeByte .adc true r, sel.setWidth 8]
  | .cmpImm r imm => [opcodeByte .cmp false r, imm]
  | .cmpReg r sel => [opcodeByte .cmp true r, sel.setWidth 8]
  | .subImm r imm => [opcodeByte .sub false r, imm]
  | .subReg r sel => [opcodeByte .sub true r, sel.setWidth 8]
  | .nandImm r imm => [opcodeByte .nand false r, imm]
  | .nandReg r sel => [opcodeByte .nand true r, sel.setWidth 8]
  | .norImm r imm => [opcodeByte .nor false r, imm]
  | .norReg r sel => [opcodeByte .nor true r, sel.setWidth 8]
  | .hlt => [opcodeByte .hlt false 0]

/-- The length in bytes, opcode byte included (R86). -/
def Instr.length : Instr → Nat
  | .nop | .pop _ | .hlt | .ldrHl _ | .strHl _ | .pushReg _ | .jmpHl | .jzHl => 1
  | .movImm _ _ | .movReg _ _ | .pushImm _ => 2
  | .addImm _ _ | .addReg _ _ | .adcImm _ _ | .adcReg _ _ | .cmpImm _ _ | .cmpReg _ _ => 2
  | .subImm _ _ | .subReg _ _ | .nandImm _ _ | .nandReg _ _ | .norImm _ _ | .norReg _ _ => 2
  | .ldrAbs _ _ | .strAbs _ _ | .lhl _ _ | .jmpAbs _ | .jzAbs _ => 3

/-! ### The words of spec/opcode_table.json -/

/-- The three bytes of a table word, the first byte its lowest eight bits; every bit from `nbits` on is 0. -/
def tableBytes (nbits w : Nat) : List Byte :=
  let v := w % 2 ^ nbits
  [BitVec.ofNat 8 v, BitVec.ofNat 8 (v / 2 ^ 8), BitVec.ofNat 8 (v / 2 ^ 16)]

/-- The instruction the decoder reads from a table word. -/
def decodeTableWord (nbits w : Nat) : Option Instr :=
  match decode (tableBytes nbits w) with
  | .ok (i, _) => some i
  | .error _ => none

end Sys2Proof
end

