-- ==== Sys2Proof/Config.lean ====
section
/-! DEFINITION. The implementation parameters MEM_SIZE and WRAP16_OVERFLOW (00_scope.md R9, R10), and the free values that
stand for what the spec leaves unspecified (60_exceptions.md R247, 92_eei_decisions.md D13). -/

namespace Sys2Proof

/-- WRAP16_OVERFLOW (R10): what an advance of PC or SP past 16 bits does (10_state.md R28, R30). -/
inductive Wrap16Overflow
  /-- The advance is modulo 2^16; the default. -/
  | wrap
  /-- The advance raises OutOfBounds(MEM, the unreduced value). -/
  | fault
deriving DecidableEq, Repr

/-- The configuration of one core. It is no architectural state (R41). DESIGN CHOICE (log 1): State carries it. -/
structure Config where
  /-- MEM_SIZE: the addresses 0 to MEM_SIZE-1 are backed (R9). -/
  memSize : Nat
  /-- WRAP16_OVERFLOW (R10). -/
  overflow : Wrap16Overflow
deriving DecidableEq, Repr

/-- The range R9 gives MEM_SIZE. -/
abbrev Config.Valid (c : Config) : Prop := 1 ≤ c.memSize ∧ c.memSize ≤ 65536

/-- DESIGN CHOICE (log 1): the values every test vector of 95_test_vectors.md assumes. -/
def Config.standard : Config := { memSize := 65536, overflow := .wrap }

/-- DESIGN CHOICE (log 2), a free value: the n-th byte drawn for a location left unspecified. -/
opaque Config.freeByte : Nat → Byte

/-- DESIGN CHOICE (log 2), a free value: the n-th 16-bit value drawn for PC or SP left unspecified. -/
opaque Config.freeWord : Nat → Word

/-- DESIGN CHOICE (log 2), a free value: the n-th bit drawn for a flag left unspecified, or for 'old or new' (D13). -/
opaque Config.freeBit : Nat → Bool

end Sys2Proof
end

