-- ==== Sys2Proof/Machine/State.lean ====
section
/-! DEFINITION. The state of the core (10_state.md), its reset value (R42), and the reasons a step can stop. -/

namespace Sys2Proof.Machine

/-- The six general registers by name (10_state.md R21). -/
inductive Gpr
  | A | B | C | D | L | H
deriving DecidableEq, Repr

/-- The two kinds of the one exception class, OutOfBounds (60_exceptions.md R240). -/
inductive OobKind
  /-- A general-register access with index 6 or 7. -/
  | reg
  /-- A memory access at an address >= MEM_SIZE, or under WRAP16_OVERFLOW = fault a PC or SP advance out of 16 bits. -/
  | mem
deriving DecidableEq, Repr

/-- What `raise OutOfBounds(kind, info)` raises (R246). `info` is an integer: R241 lets it be -1 or 0x10000. -/
structure OutOfBounds where
  kind : OobKind
  info : Int
deriving DecidableEq, Repr

/-- The cause of a fault record (R241). -/
inductive FaultCause
  /-- Code 0: no fault. -/
  | none
  /-- Code 1. -/
  | oobReg
  /-- Code 2. -/
  | oobMem
deriving DecidableEq, Repr

/-- The cause code of R241's table. -/
def FaultCause.code : FaultCause → Nat
  | .none => 0
  | .oobReg => 1
  | .oobMem => 2

/-- The fault record {cause, info, fault_pc} (10_state.md R39, 60_exceptions.md R241). -/
structure FaultRecord where
  cause : FaultCause
  info : Int
  /-- The address of the opcode byte of the instruction that faulted. -/
  faultPc : Word
deriving DecidableEq, Repr

/-- The record while FAULTED = 0: code 0 (R241). DESIGN CHOICE (log 4): info and fault_pc are 0, where R42 calls them
meaningless. -/
def FaultRecord.clear : FaultRecord := { cause := .none, info := 0, faultPc := 0 }

/-! ### Memory -/

/-- The memory array (10_state.md R40) as the list of its bytes that differ from `Memory.unlisted`, addresses rising. -/
abbrev Memory := List Host.Cell

/-- What an unlisted address reads as: the reset contents, 0x00 (R42, 20_memory.md R64).
DESIGN CHOICE of the spec (D22, log 5). -/
def Memory.unlisted : Byte := 0x00#8

/-- The canonical form: addresses strictly rising, and no entry equal to what an unlisted address reads as. -/
abbrev Memory.wf (m : Memory) : Prop :=
  List.Pairwise (fun p q => p.1 < q.1) m ∧ ∀ p ∈ m, p.2 ≠ Memory.unlisted

/-! ### State -/

/-- All the spec gives the machine (10_state.md R20 to R42), with the configuration (log 1) and the counter of free values
drawn (log 2). -/
structure State where
  /-- MEM_SIZE and WRAP16_OVERFLOW; no architectural state (R41). -/
  cfg : Config
  /-- General register 0 (R21). -/
  a : Byte
  /-- General register 1 (R21). -/
  b : Byte
  /-- General register 2 (R21). -/
  c : Byte
  /-- General register 3 (R21). -/
  d : Byte
  /-- General register 4, the low byte of HL (R21, R24). -/
  l : Byte
  /-- General register 5, the high byte of HL (R21, R24). -/
  h : Byte
  /-- PC, special register 0: the next byte to fetch (R25, R26). -/
  pc : Word
  /-- SP, special register 1 (R25, R30). -/
  sp : Word
  /-- F, special register 2: bit 0 ZERO, bit 1 CARRY, the rest plain storage (R31, R34). -/
  f : Word
  /-- S, special register 3: bit 0 HALT, the rest plain storage (R34, R35). -/
  st : Word
  /-- The memory array (R40). -/
  mem : Memory
  /-- FAULTED, the fault latch (R39). -/
  faulted : Bool
  /-- The fault record (R39, R241). -/
  record : FaultRecord
  /-- The model's own, DESIGN CHOICE (log 2): how many free values have been drawn. -/
  draws : Nat
deriving DecidableEq, Repr

/-- The construction state of a core with this configuration: everything zero (R42, 70_reset_and_hazards.md R270). -/
def State.resetWith (cfg : Config) : State :=
  { cfg := cfg, a := 0, b := 0, c := 0, d := 0, l := 0, h := 0, pc := 0, sp := 0, f := 0, st := 0, mem := [],
    faulted := false, record := FaultRecord.clear, draws := 0 }

/-- The machine right after reset, with MEM_SIZE = 65536 and WRAP16_OVERFLOW = wrap (R42; log 1). -/
def State.reset : State := State.resetWith Config.standard

/-- A location an instruction's rule can write (60_exceptions.md R247). -/
inductive Loc
  | pc
  | sp
  /-- x[r]; for an index 6 or 7 there is no such register. -/
  | gpr (r : RegIx)
  /-- F[0]. -/
  | zero
  /-- F[1]. -/
  | carry
  /-- S[0]. -/
  | halt
  /-- The memory byte at this address, where it is backed. -/
  | mem (a : Word)
deriving DecidableEq, Repr

/-- Why a step stops. An instruction that raises OutOfBounds does NOT stop here: it goes to the fault state as a next state
(DESIGN CHOICE, log 3). -/
inductive Fault
  /-- Raised by `step` alone, when FAULTED = 1 at its start: "return FAULT(record)", no state change (46_sequencer_and_host.md
  R210). Safe: the model has no step there and the hardware has none (R250). -/
  | coreFaulted (record : FaultRecord)
deriving DecidableEq, Repr

/-- Why the model gives an instruction no meaning. -/
inductive Refusal
  /-- Raised by `exec` for an instruction without a meaning. No arm of this model raises it. Safe: the model stops. -/
  | notModelled (mnemonic : String)
deriving DecidableEq, Repr

end Sys2Proof.Machine
end

