-- ==== Sys2Proof/Machine/Flags.lean ====
section
/-! DEFINITION. The named bits of F and S (10_state.md R31, R35, R37) and the flag computations of 44_alu.md. -/

namespace Sys2Proof.Machine

/-- Writes one bit and leaves every other bit unchanged (R13, R37). -/
def setBit (w : Word) (n : Nat) (v : Bool) : Word :=
  if v then w ||| (1#16 <<< n) else w &&& ~~~(1#16 <<< n)

/-- F.ZERO = F[0] (R31). -/
def State.zero (s : State) : Bool := s.f.getLsbD 0

/-- F.CARRY = F[1] (R31). -/
def State.carry (s : State) : Bool := s.f.getLsbD 1

/-- S.HALT = S[0] (R35). -/
def State.halt (s : State) : Bool := s.st.getLsbD 0

/-- `F.ZERO <- v` (R37). -/
def State.setZero (s : State) (v : Bool) : State := { s with f := setBit s.f 0 v }

/-- `F.CARRY <- v` (R37). -/
def State.setCarry (s : State) (v : Bool) : State := { s with f := setBit s.f 1 v }

/-- `S.HALT <- v` (R37). -/
def State.setHalt (s : State) (v : Bool) : State := { s with st := setBit s.st 0 v }

/-- `d + v + c`, exact, 0 to 511 (44_alu.md R172, R173). -/
def exactSum (d v : Byte) (c : Bool) : Nat := d.toNat + v.toNat + c.toNat

/-- CARRY after an addition: "exactly when the exact sum exceeds 255" (R171; for ADC the full sum, D19). -/
def sumCarry (t : Nat) : Bool := decide (t > 255)

/-- `(d - v) mod 2^8` (R174, R175). -/
def difference (d v : Byte) : Byte := d - v

/-- ZERO after CMP: the wrapped difference is 0 (R174). -/
def differenceZero (diff : Byte) : Bool := diff == 0

end Sys2Proof.Machine
end

