-- ==== Sys2Proof/Machine/Ops.lean ====
section
/-! DEFINITION. The named operations over memory and registers (20_memory.md R52, R53; 40_execution_model.md R111, R116), the
16-bit advances (10_state.md R28, R30), and taking the OutOfBounds fault (60_exceptions.md R246, R247). -/

namespace Sys2Proof.Machine

/-! ### One field -/

/-- `PC <- v`. -/
def State.setPc (s : State) (v : Word) : State := { s with pc := v }

/-- `SP <- v`. -/
def State.setSp (s : State) (v : Word) : State := { s with sp := v }

/-- Counts the free values drawn (log 2). -/
def State.setDraws (s : State) (n : Nat) : State := { s with draws := n }

/-- Writes FAULTED and the fault record. -/
def State.setLatch (s : State) (faulted : Bool) (record : FaultRecord) : State :=
  { s with faulted := faulted, record := record }

/-! ### Memory -/

/-- The byte the list holds at an address. -/
def Memory.read : Memory → Nat → Byte
  | [], _ => Memory.unlisted
  | (k, v) :: m, a => if k = a then v else Memory.read m a

/-- Writes one byte and keeps the canonical form: a byte equal to `Memory.unlisted` is not listed. -/
def Memory.write : Memory → Nat → Byte → Memory
  | [], a, v => if v = Memory.unlisted then [] else [(a, v)]
  | (k, w) :: m, a, v =>
    if a < k then (if v = Memory.unlisted then (k, w) :: m else (a, v) :: (k, w) :: m)
    else if a = k then (if v = Memory.unlisted then m else (a, v) :: m)
    else (k, w) :: Memory.write m a v

/-- The address is below MEM_SIZE (R50). -/
def State.backed (s : State) (a : Word) : Bool := decide (a.toNat < s.cfg.memSize)

/-- The byte at an address, without the check: what a host sees of memory (R219), used in statements. -/
def State.byte (s : State) (a : Word) : Byte := Memory.read s.mem a.toNat

/-- Puts a byte at an address, without the check. -/
def State.setByte (s : State) (a : Word) (v : Byte) : State := { s with mem := Memory.write s.mem a.toNat v }

/-- OutOfBounds(MEM, a) for a 16-bit address (R52). -/
def oobMem (a : Word) : OutOfBounds := { kind := .mem, info := a.toNat }

/-- OutOfBounds(REG, i) (40_execution_model.md R116). -/
def oobReg (i : RegIx) : OutOfBounds := { kind := .reg, info := i.toNat }

/-- `MemRead(a, 1)` (R52). -/
def State.memRead (s : State) (a : Word) : Except OutOfBounds Byte :=
  if s.backed a then .ok (s.byte a) else .error (oobMem a)

/-- `MemWrite(a, 1, v)` (R53). -/
def State.memWrite (s : State) (a : Word) (v : Byte) : Except OutOfBounds State :=
  if s.backed a then .ok (s.setByte a v) else .error (oobMem a)

/-! ### General registers -/

/-- The register of an index; 6 and 7 name none (10_state.md R21, R23). -/
def Gpr.ofIndex (i : RegIx) : Option Gpr :=
  match i.getLsbD 2, i.getLsbD 1, i.getLsbD 0 with
  | false, false, false => some .A
  | false, false, true => some .B
  | false, true, false => some .C
  | false, true, true => some .D
  | true, false, false => some .L
  | true, false, true => some .H
  | true, true, false => none
  | true, true, true => none

/-- The index of a register (R21). -/
def Gpr.index : Gpr → RegIx
  | .A => 0#3
  | .B => 1#3
  | .C => 2#3
  | .D => 3#3
  | .L => 4#3
  | .H => 5#3

/-- The value a register holds. -/
def State.gpr (s : State) : Gpr → Byte
  | .A => s.a
  | .B => s.b
  | .C => s.c
  | .D => s.d
  | .L => s.l
  | .H => s.h

/-- Gives a register a value. -/
def State.setGpr (s : State) (g : Gpr) (v : Byte) : State :=
  match g with
  | .A => { s with a := v }
  | .B => { s with b := v }
  | .C => { s with c := v }
  | .D => { s with d := v }
  | .L => { s with l := v }
  | .H => { s with h := v }

/-- `x[i]`, read (R116). -/
def State.readReg (s : State) (i : RegIx) : Except OutOfBounds Byte :=
  match Gpr.ofIndex i with
  | some g => .ok (s.gpr g)
  | none => .error (oobReg i)

/-- `x[i] <- v` (R116). -/
def State.writeReg (s : State) (i : RegIx) (v : Byte) : Except OutOfBounds State :=
  match Gpr.ofIndex i with
  | some g => .ok (s.setGpr g v)
  | none => .error (oobReg i)

/-- HL, read afresh from L and H: `zext_16(x[4]) | (zext_16(x[5]) << 8)` (R24). -/
def State.hl (s : State) : Word := wordOfBytes s.l s.h

/-! ### The 16-bit advances of PC and SP -/

/-- `(w + 1) mod 2^16`; under WRAP16_OVERFLOW = fault an advance from 0xFFFF raises OutOfBounds(MEM, 0x10000) (R28, R30). -/
def Config.increment (c : Config) (w : Word) : Except OutOfBounds Word :=
  if c.overflow = .fault ∧ w = 0xFFFF#16 then .error { kind := .mem, info := 0x10000 } else .ok (w + 1#16)

/-- `(w - 1) mod 2^16`; under WRAP16_OVERFLOW = fault a decrement of 0 raises OutOfBounds(MEM, -1) (R30). -/
def Config.decrement (c : Config) (w : Word) : Except OutOfBounds Word :=
  if c.overflow = .fault ∧ w = 0#16 then .error { kind := .mem, info := -1 } else .ok (w - 1#16)

/-! ### What an instruction's rule writes -/

/-- The byte a PUSH stores to: SP after the decrement (R30, R150), where that address exists. -/
def State.pushLoc (s : State) : List Loc :=
  match Config.decrement s.cfg s.sp with
  | .ok sp => [.mem sp]
  | .error _ => []

/-- Every location the rule of an instruction writes, PC included (R247; the table of R22 and the flags of R31, R35). The
addresses are those of the state before the instruction's effect. -/
def Instr.writes (i : Instr) (s : State) : List Loc :=
  match i with
  | .nop => [.pc]
  | .movImm r _ | .movReg r _ => [.pc, .gpr r]
  | .ldrAbs r _ | .ldrHl r => [.pc, .gpr r]
  | .strAbs _ a => [.pc, .mem a]
  | .strHl _ => [.pc, .mem s.hl]
  | .lhl _ _ => [.pc, .gpr 4#3, .gpr 5#3]
  | .pushImm _ | .pushReg _ => .pc :: .sp :: s.pushLoc
  | .pop r => [.pc, .gpr r, .sp]
  | .jmpAbs _ | .jmpHl | .jzAbs _ | .jzHl => [.pc]
  | .addImm r _ | .addReg r _ | .adcImm r _ | .adcReg r _ => [.pc, .gpr r, .carry]
  | .cmpImm _ _ | .cmpReg _ _ => [.pc, .zero]
  | .subImm r _ | .subReg r _ | .nandImm r _ | .nandReg r _ | .norImm r _ | .norReg r _ => [.pc, .gpr r]
  | .hlt => [.pc, .halt]

/-- A location that is no memory byte. -/
def Loc.notMemory : Loc → Bool
  | .mem _ => false
  | _ => true

/-! ### Taking the fault -/

/-- Gives one location a free value (R247(b), log 2) and counts the draw. A register with index 6 or 7 and an address at or
past MEM_SIZE do not exist, so nothing changes there. -/
def State.leaveUnspecified (s : State) (loc : Loc) : State :=
  let t := s.setDraws (s.draws + 1)
  match loc with
  | .pc => t.setPc (Config.freeWord s.draws)
  | .sp => t.setSp (Config.freeWord s.draws)
  | .gpr r =>
    match Gpr.ofIndex r with
    | some g => t.setGpr g (Config.freeByte s.draws)
    | none => t
  | .zero => t.setZero (Config.freeBit s.draws)
  | .carry => t.setCarry (Config.freeBit s.draws)
  | .halt => t.setHalt (Config.freeBit s.draws)
  | .mem a => if s.backed a then t.setByte a (Config.freeByte s.draws) else t

/-- The cause of a kind (R241). -/
def OobKind.cause : OobKind → FaultCause
  | .reg => .oobReg
  | .mem => .oobMem

/-- `raise OutOfBounds(kind, info)` (R246): FAULTED is set and the record written. `s` is the state before the instruction,
and `locs` are the locations left unspecified (R247). No handler, vector, stack push or mode change exists. There is no
return from this state: FAULTED is cleared only by reset (R250), which is `State.resetWith`. -/
def State.takeFault (s : State) (locs : List Loc) (e : OutOfBounds) (faultPc : Word) : State :=
  (locs.foldl State.leaveUnspecified s).setLatch true { cause := e.kind.cause, info := e.info, faultPc := faultPc }

/-- The end of an instruction whose bytes are all fetched: its effect, or the fault state. A fault here writes no memory byte
(R53, R132, R150; DEDUCED, log 6), so only the other locations are left unspecified.
PC holds the address after the instruction (R112), so its opcode byte is `length` bytes before (DEDUCED, log 8). -/
def conclude (i : Instr) (s : State) (effect : Except OutOfBounds State) : Host.Outcome State Fault Refusal :=
  match effect with
  | .ok t => .next t
  | .error e => .next (s.takeFault ((Instr.writes i s).filter Loc.notMemory) e (s.pc - BitVec.ofNat 16 i.length))

end Sys2Proof.Machine
end

