-- ==== Sys2Proof/Machine/Operands.lean ====
section
/-! DEFINITION. Operand and address resolution (40_execution_model.md R113 to R115). The operand bytes are fetched by
`step` (Machine/Fetch.lean); what is left to resolve is the mode bit's choice. -/

namespace Sys2Proof.Machine

/-- An 8-bit operand by the mode bit: the byte itself (M = 0) or a register (M = 1). -/
inductive Source
  | imm (v : Byte)
  | reg (sel : RegIx)
deriving DecidableEq, Repr

/-- A 16-bit address by the mode bit: two operand bytes (M = 0) or HL (M = 1). -/
inductive Address
  | abs (a : Word)
  | hl
deriving DecidableEq, Repr

/-- `Operand(M)` after its byte is fetched (R115); PUSH's `if M == 1` is the same choice (42_stack.md R150). -/
def State.operand (s : State) : Source → Except OutOfBounds Byte
  | .imm v => .ok v
  | .reg sel => s.readReg sel

/-- `EA(M)` after its bytes are fetched (R114); HL is read when EA is evaluated. -/
def State.ea (s : State) : Address → Word
  | .abs a => a
  | .hl => s.hl

end Sys2Proof.Machine
end

