-- ==== Sys2Proof/Machine/Alu.lean ====
section
/-! DEFINITION. ADD, ADC, CMP, SUB, NAND and NOR (44_alu.md). Each reads its operand before x[r] (60_exceptions.md R249). -/

namespace Sys2Proof.Machine

/-- ADD and ADC (R172, R173): the exact sum with the carry-in, its low byte to x[r], CARRY from the whole sum
(DESIGN CHOICE of the spec, D19, log 15). -/
def State.addWith (s : State) (r : RegIx) (src : Source) (carryIn : Bool) : Except OutOfBounds State := do
  let v ← s.operand src
  let d ← s.readReg r
  let t := exactSum d v carryIn
  let s' ← s.writeReg r (BitVec.ofNat 8 t)
  .ok (s'.setCarry (sumCarry t))

/-- CMP (R174): ZERO from the difference; no register is written. -/
def State.compare (s : State) (r : RegIx) (src : Source) : Except OutOfBounds State := do
  let v ← s.operand src
  let d ← s.readReg r
  .ok (s.setZero (differenceZero (difference d v)))

/-- SUB, NAND and NOR (R175 to R177): a result of x[r] and the operand to x[r], no flag. -/
def State.combine (s : State) (r : RegIx) (src : Source) (op : Byte → Byte → Byte) : Except OutOfBounds State := do
  let v ← s.operand src
  let d ← s.readReg r
  s.writeReg r (op d v)

/-- `not8(d & v)` (R176). -/
def nandByte (d v : Byte) : Byte := ~~~(d &&& v)

/-- `not8(d | v)` (R177). -/
def norByte (d v : Byte) : Byte := ~~~(d ||| v)

/-- ADD r, #imm8 (R172). -/
def execAddImm (r : RegIx) (imm : Byte) (s : State) : Host.Outcome State Fault Refusal :=
  conclude (.addImm r imm) s (s.addWith r (.imm imm) false)

/-- ADD r, sel (R172). -/
def execAddReg (r sel : RegIx) (s : State) : Host.Outcome State Fault Refusal :=
  conclude (.addReg r sel) s (s.addWith r (.reg sel) false)

/-- ADC r, #imm8 (R173): the carry-in is F.CARRY before the instruction. -/
def execAdcImm (r : RegIx) (imm : Byte) (s : State) : Host.Outcome State Fault Refusal :=
  conclude (.adcImm r imm) s (s.addWith r (.imm imm) s.carry)

/-- ADC r, sel (R173). -/
def execAdcReg (r sel : RegIx) (s : State) : Host.Outcome State Fault Refusal :=
  conclude (.adcReg r sel) s (s.addWith r (.reg sel) s.carry)

/-- CMP r, #imm8 (R174). -/
def execCmpImm (r : RegIx) (imm : Byte) (s : State) : Host.Outcome State Fault Refusal :=
  conclude (.cmpImm r imm) s (s.compare r (.imm imm))

/-- CMP r, sel (R174). -/
def execCmpReg (r sel : RegIx) (s : State) : Host.Outcome State Fault Refusal :=
  conclude (.cmpReg r sel) s (s.compare r (.reg sel))

/-- SUB r, #imm8 (R175). -/
def execSubImm (r : RegIx) (imm : Byte) (s : State) : Host.Outcome State Fault Refusal :=
  conclude (.subImm r imm) s (s.combine r (.imm imm) difference)

/-- SUB r, sel (R175). -/
def execSubReg (r sel : RegIx) (s : State) : Host.Outcome State Fault Refusal :=
  conclude (.subReg r sel) s (s.combine r (.reg sel) difference)

/-- NAND r, #imm8 (R176). -/
def execNandImm (r : RegIx) (imm : Byte) (s : State) : Host.Outcome State Fault Refusal :=
  conclude (.nandImm r imm) s (s.combine r (.imm imm) nandByte)

/-- NAND r, sel (R176). -/
def execNandReg (r sel : RegIx) (s : State) : Host.Outcome State Fault Refusal :=
  conclude (.nandReg r sel) s (s.combine r (.reg sel) nandByte)

/-- NOR r, #imm8 (R177). -/
def execNorImm (r : RegIx) (imm : Byte) (s : State) : Host.Outcome State Fault Refusal :=
  conclude (.norImm r imm) s (s.combine r (.imm imm) norByte)

/-- NOR r, sel (R177). -/
def execNorReg (r sel : RegIx) (s : State) : Host.Outcome State Fault Refusal :=
  conclude (.norReg r sel) s (s.combine r (.reg sel) norByte)

end Sys2Proof.Machine
end

