-- ==== Sys2Proof/Machine/Branch.lean ====
section
/-! DEFINITION. JMP and JZ (43_branch.md). -/

namespace Sys2Proof.Machine

/-- JMP (R160): `t <- EA(M); PC <- t`. -/
def State.jmp (s : State) (addr : Address) : State := s.setPc (s.ea addr)

/-- JZ (R161): taken when ZERO is CLEAR, against its name (C3). -/
def State.jz (s : State) (addr : Address) : State :=
  if s.zero then s else s.setPc (s.ea addr)

/-- JMP addr16 (R160). -/
def execJmpAbs (addr : Word) (s : State) : Host.Outcome State Fault Refusal :=
  conclude (.jmpAbs addr) s (.ok (s.jmp (.abs addr)))

/-- JMP HL (R160). -/
def execJmpHl (s : State) : Host.Outcome State Fault Refusal :=
  conclude .jmpHl s (.ok (s.jmp .hl))

/-- JZ addr16 (R161). -/
def execJzAbs (addr : Word) (s : State) : Host.Outcome State Fault Refusal :=
  conclude (.jzAbs addr) s (.ok (s.jz (.abs addr)))

/-- JZ HL (R161). -/
def execJzHl (s : State) : Host.Outcome State Fault Refusal :=
  conclude .jzHl s (.ok (s.jz .hl))

end Sys2Proof.Machine
end

