-- ==== Sys2Proof/Machine/Stack.lean ====
section
/-! DEFINITION. PUSH and POP (42_stack.md). -/

namespace Sys2Proof.Machine

/-- PUSH (R150): the value, then `SP <- SP - 1`, then `MemWrite(SP, 1, v)`. -/
def State.push (s : State) (src : Source) : Except OutOfBounds State := do
  let v ← s.operand src
  let sp ← Config.decrement s.cfg s.sp
  (s.setSp sp).memWrite sp v

/-- PUSH #imm8 (R150). -/
def execPushImm (imm : Byte) (s : State) : Host.Outcome State Fault Refusal :=
  conclude (.pushImm imm) s (s.push (.imm imm))

/-- PUSH r (R150). -/
def execPushReg (r : RegIx) (s : State) : Host.Outcome State Fault Refusal :=
  conclude (.pushReg r) s (s.push (.reg r))

/-- POP r (R151): `v <- MemRead(SP, 1); x[r] <- v; SP <- SP + 1`. -/
def execPop (r : RegIx) (s : State) : Host.Outcome State Fault Refusal :=
  conclude (.pop r) s (do
    let v ← s.memRead s.sp
    let t ← s.writeReg r v
    let sp ← Config.increment s.cfg t.sp
    .ok (t.setSp sp))

end Sys2Proof.Machine
end

