-- ==== Sys2Proof/Machine/System.lean ====
section
/-! DEFINITION. NOP and HLT (45_system.md). -/

namespace Sys2Proof.Machine

/-- NOP (R200): "No state change beyond normal fetch advance." -/
def execNop (s : State) : Host.Outcome State Fault Refusal :=
  conclude .nop s (.ok s)

/-- HLT (R201): `S.HALT <- 1`; only bit 0 of S changes. -/
def execHlt (s : State) : Host.Outcome State Fault Refusal :=
  conclude .hlt s (.ok (s.setHalt true))

end Sys2Proof.Machine
end

