-- ==== Sys2Proof/Machine/Transfer.lean ====
section
/-! DEFINITION. MOV, LDR, STR and LHL (41_data_transfer.md). -/

namespace Sys2Proof.Machine

/-- MOV (R130): `v <- Operand(M); x[r] <- v`. -/
def State.mov (s : State) (r : RegIx) (src : Source) : Except OutOfBounds State := do
  let v ← s.operand src
  s.writeReg r v

/-- LDR (R131): `a <- EA(M); v <- MemRead(a, 1); x[r] <- v`. -/
def State.ldr (s : State) (r : RegIx) (addr : Address) : Except OutOfBounds State := do
  let v ← s.memRead (s.ea addr)
  s.writeReg r v

/-- STR (R132): `a <- EA(M); v <- x[r]; MemWrite(a, 1, v)`. -/
def State.str (s : State) (r : RegIx) (addr : Address) : Except OutOfBounds State := do
  let v ← s.readReg r
  s.memWrite (s.ea addr) v

/-- MOV r, #imm8 (R130). -/
def execMovImm (r : RegIx) (imm : Byte) (s : State) : Host.Outcome State Fault Refusal :=
  conclude (.movImm r imm) s (s.mov r (.imm imm))

/-- MOV r, sel (R130). -/
def execMovReg (r sel : RegIx) (s : State) : Host.Outcome State Fault Refusal :=
  conclude (.movReg r sel) s (s.mov r (.reg sel))

/-- LDR r, [addr16] (R131). -/
def execLdrAbs (r : RegIx) (addr : Word) (s : State) : Host.Outcome State Fault Refusal :=
  conclude (.ldrAbs r addr) s (s.ldr r (.abs addr))

/-- LDR r, [HL] (R131). -/
def execLdrHl (r : RegIx) (s : State) : Host.Outcome State Fault Refusal :=
  conclude (.ldrHl r) s (s.ldr r .hl)

/-- STR r, [addr16] (R132). -/
def execStrAbs (r : RegIx) (addr : Word) (s : State) : Host.Outcome State Fault Refusal :=
  conclude (.strAbs r addr) s (s.str r (.abs addr))

/-- STR r, [HL] (R132). -/
def execStrHl (r : RegIx) (s : State) : Host.Outcome State Fault Refusal :=
  conclude (.strHl r) s (s.str r .hl)

/-- LHL (R133): `x[4] <- lo; x[5] <- hi`. -/
def execLhl (lo hi : Byte) (s : State) : Host.Outcome State Fault Refusal :=
  conclude (.lhl lo hi) s (do
    let t ← s.writeReg 4#3 lo
    t.writeReg 5#3 hi)

end Sys2Proof.Machine
end

