-- ==== Sys2Proof/Machine/Dispatch.lean ====
section
/-! DEFINITION. The dispatch of 40_execution_model.md R118: one arm per constructor, no default arm. -/

namespace Sys2Proof.Machine

/-- The effect of an instruction whose bytes are all fetched: PC already holds the address after it (R112; DEDUCED,
log 9). -/
def exec (i : Instr) (s : State) : Host.Outcome State Fault Refusal :=
  match i with
  | .nop => Sys2Proof.Machine.execNop s
  | .movImm r imm => Sys2Proof.Machine.execMovImm r imm s
  | .movReg r sel => Sys2Proof.Machine.execMovReg r sel s
  | .ldrAbs r addr => Sys2Proof.Machine.execLdrAbs r addr s
  | .ldrHl r => Sys2Proof.Machine.execLdrHl r s
  | .strAbs r addr => Sys2Proof.Machine.execStrAbs r addr s
  | .strHl r => Sys2Proof.Machine.execStrHl r s
  | .lhl lo hi => Sys2Proof.Machine.execLhl lo hi s
  | .pushImm imm => Sys2Proof.Machine.execPushImm imm s
  | .pushReg r => Sys2Proof.Machine.execPushReg r s
  | .pop r => Sys2Proof.Machine.execPop r s
  | .jmpAbs addr => Sys2Proof.Machine.execJmpAbs addr s
  | .jmpHl => Sys2Proof.Machine.execJmpHl s
  | .jzAbs addr => Sys2Proof.Machine.execJzAbs addr s
  | .jzHl => Sys2Proof.Machine.execJzHl s
  | .addImm r imm => Sys2Proof.Machine.execAddImm r imm s
  | .addReg r sel => Sys2Proof.Machine.execAddReg r sel s
  | .adcImm r imm => Sys2Proof.Machine.execAdcImm r imm s
  | .adcReg r sel => Sys2Proof.Machine.execAdcReg r sel s
  | .cmpImm r imm => Sys2Proof.Machine.execCmpImm r imm s
  | .cmpReg r sel => Sys2Proof.Machine.execCmpReg r sel s
  | .subImm r imm => Sys2Proof.Machine.execSubImm r imm s
  | .subReg r sel => Sys2Proof.Machine.execSubReg r sel s
  | .nandImm r imm => Sys2Proof.Machine.execNandImm r imm s
  | .nandReg r sel => Sys2Proof.Machine.execNandReg r sel s
  | .norImm r imm => Sys2Proof.Machine.execNorImm r imm s
  | .norReg r sel => Sys2Proof.Machine.execNorReg r sel s
  | .hlt => Sys2Proof.Machine.execHlt s

end Sys2Proof.Machine
end

