-- ==== Sys2Proof/Machine/Fetch.lean ====
section
/-! DEFINITION. The instruction cycle (40_execution_model.md R110 to R112): fetching an instruction's bytes one at a time at
PC, and the fault of a fetch. -/

namespace Sys2Proof.Machine

/-- `FetchByte()` (R111): the byte at PC, then PC advances by 1 (10_state.md R28). -/
def State.fetchByte (s : State) : Except OutOfBounds (Byte × State) := do
  let b ← s.memRead s.pc
  let pc ← Config.increment s.cfg s.pc
  .ok (b, s.setPc pc)

/-- The byte a failing `FetchByte()` had read before it failed: one when only the advance of PC failed, else none. -/
def State.seenByte (s : State) : List Byte := if s.backed s.pc then [s.byte s.pc] else []

/-- `n` bytes fetched in address order (R112), with the bytes read before a failure. -/
def State.fetchBytes : Nat → State → List Byte × Except OutOfBounds State
  | 0, s => ([], .ok s)
  | n + 1, s =>
    match s.fetchByte with
    | .error e => (s.seenByte, .error e)
    | .ok (b, t) => (b :: (State.fetchBytes n t).1, (State.fetchBytes n t).2)

/-- The fault state of a fetch (60_exceptions.md R246, R247). No opcode byte read: only PC is left unspecified. Otherwise
every location the rule of that opcode writes is, with free bytes for the operand bytes not read (DEDUCED, log 6, 7).
fault_pc is the PC at the start of the step (R110). -/
def State.faultInFetch (s : State) (seen : List Byte) (e : OutOfBounds) : State :=
  match seen with
  | [] => s.takeFault [.pc] e s.pc
  | op :: operands =>
    let i := decodeFields op (operands.getD 0 (Config.freeByte s.draws)) (operands.getD 1 (Config.freeByte (s.draws + 1)))
    (s.setDraws (s.draws + 2)).takeFault (Instr.writes i s) e s.pc

/-- `Execute1()` (R110): fetch the opcode byte, then the operand bytes, then perform the effect. -/
def State.execute1 (s : State) : Host.Outcome State Fault Refusal :=
  match s.fetchByte with
  | .error e => .next (s.faultInFetch s.seenByte e)
  | .ok (op, t) =>
    match State.fetchBytes (operandCount op) t with
    | (operands, .error e) => .next (s.faultInFetch (op :: operands) e)
    | (operands, .ok u) => exec (decodeFields op (operands.getD 0 0) (operands.getD 1 0)) u

/-- Puts bytes at consecutive addresses modulo 2^16, where they are backed (30_encoding.md R80). -/
def State.placeBytes (s : State) (a : Word) : List Byte → State
  | [] => s
  | b :: bs => State.placeBytes (if s.backed a then s.setByte a b else s) (a + 1#16) bs

end Sys2Proof.Machine
end

