-- ==== Sys2Proof/Machine/Step.lean ====
section
/-! DEFINITION. One step of the sequencer (46_sequencer_and_host.md R210), and placing a word where it fetches. -/

namespace Sys2Proof.Machine

/-- `step()` (R210). FAULTED: the record is reported and nothing changes. HALT: "returns immediately with no effect"
(DESIGN CHOICE, log 17).
Otherwise one instruction runs; if it raises OutOfBounds the next state is the fault state (DESIGN CHOICE, log 3). -/
def step (s : State) : Host.Outcome State Fault Refusal :=
  if s.faulted then .fault (.coreFaulted s.record)
  else if s.halt then .next s
  else s.execute1

/-- The state with a table word's three bytes at PC, and FAULTED and HALT clear, so that the next step runs it. DESIGN CHOICE
(log 14). -/
def State.withFetchWord (s : State) (nbits w : Nat) : State :=
  ((s.placeBytes s.pc (tableBytes nbits w)).setHalt false).setLatch false FaultRecord.clear

end Sys2Proof.Machine
end

