-- ==== Sys2Proof/Machine/Bus.lean ====
section
/-! DEFINITION. The one-byte accesses a step makes at the memory port, in order (20_memory.md R55, R65, R72). A failing access
is the last one listed: "the port reports out-of-range instead of completing the access". DESIGN
CHOICE (log 16): a list, not wires. -/

namespace Sys2Proof.Machine

/-- A request at the memory port (R72). -/
inductive Access
  | read (a : Word)
  | write (a : Word) (v : Byte)
deriving DecidableEq, Repr

/-- The address of a request. -/
def Access.addr : Access → Word
  | .read a => a
  | .write a _ => a

/-- The fetch reads of `n` bytes from PC on; they stop at the first failure (R111). -/
def State.fetchAccesses : Nat → State → List Access
  | 0, _ => []
  | n + 1, s =>
    .read s.pc ::
      match s.fetchByte with
      | .error _ => []
      | .ok (_, t) => State.fetchAccesses n t

/-- The write a store makes, where its source register exists (R132, R150). -/
def storeAccess (a : Word) : Except OutOfBounds Byte → List Access
  | .ok v => [.write a v]
  | .error _ => []

/-- The write a PUSH makes: at SP after the decrement, if both the source and the decrement succeed (R55, R150). -/
def State.pushAccess (s : State) (src : Source) : List Access :=
  match s.operand src, Config.decrement s.cfg s.sp with
  | .ok v, .ok sp => [.write sp v]
  | _, _ => []

/-- The data or stack access of an instruction (R55). -/
def Instr.dataAccess (i : Instr) (s : State) : List Access :=
  match i with
  | .ldrAbs _ a => [.read a]
  | .ldrHl _ => [.read s.hl]
  | .strAbs r a => storeAccess a (s.readReg r)
  | .strHl r => storeAccess s.hl (s.readReg r)
  | .pushImm v => s.pushAccess (.imm v)
  | .pushReg r => s.pushAccess (.reg r)
  | .pop _ => [.read s.sp]
  | .nop | .movImm _ _ | .movReg _ _ | .lhl _ _ | .jmpAbs _ | .jmpHl | .jzAbs _ | .jzHl => []
  | .addImm _ _ | .addReg _ _ | .adcImm _ _ | .adcReg _ _ | .cmpImm _ _ | .cmpReg _ _ => []
  | .subImm _ _ | .subReg _ _ | .nandImm _ _ | .nandReg _ _ | .norImm _ _ | .norReg _ _ => []
  | .hlt => []

/-- Every access of one step, in order: opcode fetch, operand fetches, data or stack access (R55, R65). -/
def State.accesses (s : State) : List Access :=
  if s.faulted || s.halt then []
  else
    .read s.pc ::
      match s.fetchByte with
      | .error _ => []
      | .ok (op, t) =>
        State.fetchAccesses (operandCount op) t ++
          match State.fetchBytes (operandCount op) t with
          | (_, .error _) => []
          | (operands, .ok u) => Instr.dataAccess (decodeFields op (operands.getD 0 0) (operands.getD 1 0)) u

end Sys2Proof.Machine
end

