-- ==== Sys2Proof/Machine/Port.lean ====
section
/-! DEFINITION. The host's command port (46_sequencer_and_host.md R210 to R225): `step`, `run`, `load`, register and memory
access, the dumps and reset, each at an instruction boundary (R216). -/

namespace Sys2Proof.Machine

/-- What `step()` reports (R211). -/
inductive StepReply
  /-- One instruction completed. -/
  | ok
  /-- HALT was already set and nothing happened. -/
  | halted
  /-- An OutOfBounds fault was raised now or earlier. -/
  | fault (record : FaultRecord)
deriving DecidableEq, Repr

/-- `step()` as the host sees it: its report and the state after (R210, R211). -/
def State.stepReply (s : State) : StepReply × State :=
  if s.faulted then (.fault s.record, s)
  else if s.halt then (.halted, s)
  else
    match step s with
    | .next t => if t.faulted then (.fault t.record, t) else (.ok, t)
    | .fault _ => (.fault s.record, s)
    | .refused _ => (.fault s.record, s)

/-- How a `run()` ends (R212, R215). -/
inductive RunReply
  | done
  | fault (record : FaultRecord)
deriving DecidableEq, Repr

/-- The loop of `run()` (R212) for at most `bound` steps; `none` when it has not ended by then (DESIGN CHOICE,
log 12). -/
def State.runLoop : Nat → State → Option (RunReply × State)
  | 0, _ => none
  | bound + 1, s =>
    match s.stepReply with
    | (.fault r, t) => some (.fault r, t)
    | (_, t) => if t.halt then some (.done, t) else State.runLoop bound t

/-- `run()` (R212): on a faulted core the record and no change; else HALT is cleared and the loop runs. -/
def State.run (bound : Nat) (s : State) : Option (RunReply × State) :=
  if s.faulted then some (.fault s.record, s) else State.runLoop bound (s.setHalt false)

/-- This `run()` ends, so (R215). A `run()` for which this holds of no reply and state has no end (R213). -/
def State.RunEnds (s : State) (r : RunReply) (t : State) : Prop := ∃ bound, s.run bound = some (r, t)

/-! ### Register access (R218, R222) -/

/-- The special registers by number (10_state.md R25). -/
inductive Spr
  | PC | SP | F | S
deriving DecidableEq, Repr

/-- The special register of a host index (R222). -/
def Spr.ofIndex : Nat → Option Spr
  | 0 => some .PC
  | 1 => some .SP
  | 2 => some .F
  | 3 => some .S
  | _ => none

/-- The general register of a host index (R222). -/
def Gpr.ofHostIndex : Nat → Option Gpr
  | 0 => some .A
  | 1 => some .B
  | 2 => some .C
  | 3 => some .D
  | 4 => some .L
  | 5 => some .H
  | _ => none

/-- The value a special register holds. -/
def State.spr (s : State) : Spr → Word
  | .PC => s.pc
  | .SP => s.sp
  | .F => s.f
  | .S => s.st

/-- Gives a special register a value; every bit is stored as written (R34, R218). -/
def State.setSpr (s : State) (r : Spr) (v : Word) : State :=
  match r with
  | .PC => s.setPc v
  | .SP => s.setSp v
  | .F => { s with f := v }
  | .S => { s with st := v }

/-- ERROR OutOfBounds for a bad register index. DESIGN CHOICE (log 11): the kind is REG for a special register too. -/
def indexError (i : Nat) : OutOfBounds := { kind := .reg, info := i }

/-! ### Memory access, `load` and the dumps (R217, R219 to R221) -/

/-- The address of byte `i` of a load or dump: `(start + i) mod 2^16`. -/
def rangeAddr (start : Word) (i : Nat) : Word := start + BitVec.ofNat 16 i

/-- The first address at or past MEM_SIZE among `n` addresses from `start`. -/
def State.firstUnbacked (s : State) (start : Word) : Nat → Option Word
  | 0 => none
  | n + 1 => if s.backed start then s.firstUnbacked (start + 1#16) n else some start

/-- The bytes of a load that fails: each byte at an in-range address is written or not, by a free bit (D13; DEDUCED,
log 10). -/
def State.loadPartly (s : State) (start : Word) : List Byte → State
  | [] => s
  | b :: bs =>
    let t := s.setDraws (s.draws + 1)
    State.loadPartly (if s.backed start && Config.freeBit s.draws then t.setByte start b else t) (start + 1#16) bs

/-- `load(start, bytes)` (R217): the later byte at an address wins; the first unbacked address is the error. -/
def State.load (s : State) (start : Word) (bytes : List Byte) : Except OutOfBounds Unit × State :=
  match s.firstUnbacked start bytes.length with
  | some a => (.error (oobMem a), s.loadPartly start bytes)
  | none => (.ok (), s.placeBytes start bytes)

/-- The memory-range dump (R221); DEDUCED (log 11): the error is of kind MEM and names the first unbacked address. -/
def State.memoryDump (s : State) (start : Word) (n : Nat) : Except OutOfBounds (List Byte) :=
  match s.firstUnbacked start n with
  | some a => .error (oobMem a)
  | none => .ok ((List.range n).map (fun i => s.byte (rangeAddr start i)))

/-- The state dump, by name (R220). -/
structure StateDump where
  A : Byte
  B : Byte
  C : Byte
  D : Byte
  L : Byte
  H : Byte
  PC : Word
  SP : Word
  F : Word
  S : Word
  ZERO : Bool
  CARRY : Bool
  HALT : Bool
deriving DecidableEq, Repr

/-- "All register values, the two flag bits, and the halt bit, by name" (R220). -/
def State.dump (s : State) : StateDump :=
  { A := s.a, B := s.b, C := s.c, D := s.d, L := s.l, H := s.h, PC := s.pc, SP := s.sp, F := s.f, S := s.st,
    ZERO := s.zero, CARRY := s.carry, HALT := s.halt }

/-! ### The command port (R224) -/

/-- The commands of R224. DEDUCED from R220 and D12 (log 20): the state dump is a command too. -/
inductive Command
  | reset
  | step
  | run
  | readGpr (i : Nat)
  | writeGpr (i : Nat) (v : Byte)
  | readSpr (i : Nat)
  | writeSpr (i : Nat) (v : Word)
  | readMem (a : Word)
  | writeMem (a : Word) (v : Byte)
  | load (start : Word) (bytes : List Byte)
  | dump (start : Word) (n : Nat)
  | dumpState
deriving DecidableEq, Repr

/-- The results of R224. -/
inductive Reply
  | ok
  | halted
  | done
  | fault (record : FaultRecord)
  | error (e : OutOfBounds)
  | byte (v : Byte)
  | word (v : Word)
  | bytes (vs : List Byte)
  | registers (d : StateDump)
deriving DecidableEq, Repr

/-- RESET: the construction state, memory included (70_reset_and_hazards.md R270, D22). The configuration stays, and so does
the model's counter of free values (DESIGN CHOICE, log 13). -/
def State.resetCommand (s : State) : State := (State.resetWith s.cfg).setDraws s.draws

/-- One command, complete before the next (R216, R224). `bound` limits a RUN alone: `none` is a RUN still executing after
that many steps, which the host cannot interrupt (R213, R214; log 12). DESIGN CHOICE (log 20): RESET answers OK. -/
def State.perform (bound : Nat) (c : Command) (s : State) : Option (Reply × State) :=
  match c with
  | .reset => some (.ok, s.resetCommand)
  | .step =>
    match s.stepReply with
    | (.ok, t) => some (.ok, t)
    | (.halted, t) => some (.halted, t)
    | (.fault r, t) => some (.fault r, t)
  | .run =>
    match s.run bound with
    | some (.done, t) => some (.done, t)
    | some (.fault r, t) => some (.fault r, t)
    | none => none
  | .readGpr i =>
    match Gpr.ofHostIndex i with
    | some g => some (.byte (s.gpr g), s)
    | none => some (.error (indexError i), s)
  | .writeGpr i v =>
    match Gpr.ofHostIndex i with
    | some g => some (.ok, s.setGpr g v)
    | none => some (.error (indexError i), s)
  | .readSpr i =>
    match Spr.ofIndex i with
    | some r => some (.word (s.spr r), s)
    | none => some (.error (indexError i), s)
  | .writeSpr i v =>
    match Spr.ofIndex i with
    | some r => some (.ok, s.setSpr r v)
    | none => some (.error (indexError i), s)
  | .readMem a => if s.backed a then some (.byte (s.byte a), s) else some (.error (oobMem a), s)
  | .writeMem a v => if s.backed a then some (.ok, s.setByte a v) else some (.error (oobMem a), s)
  | .load start bytes =>
    match s.load start bytes with
    | (.ok _, t) => some (.ok, t)
    | (.error e, t) => some (.error e, t)
  | .dump start n =>
    match s.memoryDump start n with
    | .ok vs => some (.bytes vs, s)
    | .error e => some (.error e, s)
  | .dumpState => some (.registers s.dump, s)

/-- The status output HALT (R224). -/
def State.haltOutput (s : State) : Bool := s.halt

/-- The status output FAULTED (R224). -/
def State.faultedOutput (s : State) : Bool := s.faulted

end Sys2Proof.Machine
end

