-- ==== Sys2Proof/Safety.lean ====
section
/-! DEFINITION. What the model's states and runs are held to: the invariant of every state, and runs that never fault. -/

namespace Sys2Proof.Machine

/-- The record of a set latch is one R241's table allows: cause 1 with an index 6 or 7; cause 2 with a 16-bit address at or
past MEM_SIZE, or, under WRAP16_OVERFLOW = fault, -1 or 0x10000. -/
def FaultRecord.Legal (cfg : Config) (r : FaultRecord) : Prop :=
  (r.cause = .oobReg ∧ (r.info = 6 ∨ r.info = 7)) ∨
  (r.cause = .oobMem ∧
    (((cfg.memSize : Int) ≤ r.info ∧ r.info ≤ 0xFFFF) ∨
      (cfg.overflow = .fault ∧ (r.info = -1 ∨ r.info = 0x10000))))

/-- The invariant of every state of the core: a valid configuration (R9); memory in its canonical form and with nothing
outside the backed addresses (R50, R54); and a record that is clear or legal as FAULTED says (R241). -/
structure State.Inv (s : State) : Prop where
  config : s.cfg.Valid
  memoryForm : Memory.wf s.mem
  memoryBacked : ∀ p ∈ s.mem, p.1 < s.cfg.memSize
  latchClear : s.faulted = false → s.record.cause = .none
  latchSet : s.faulted = true → s.record.Legal s.cfg

/-- A location holds in `t` what it holds in `s`. Register indices 6 and 7 have nothing to compare. -/
def Loc.Same (s t : State) : Loc → Prop
  | .pc => t.pc = s.pc
  | .sp => t.sp = s.sp
  | .gpr r => ∀ g : Gpr, g.index = r → t.gpr g = s.gpr g
  | .zero => t.zero = s.zero
  | .carry => t.carry = s.carry
  | .halt => t.halt = s.halt
  | .mem a => t.byte a = s.byte a

/-- What no instruction's rule writes, faulting or not: the configuration, and the unassigned bits of F and S (10_state.md
R34, R41). -/
structure State.SameStorage (s t : State) : Prop where
  cfg : t.cfg = s.cfg
  flags : ∀ n, 2 ≤ n → t.f.getLsbD n = s.f.getLsbD n
  status : ∀ n, 1 ≤ n → t.st.getLsbD n = s.st.getLsbD n

/-- The next step runs an instruction: neither FAULTED nor HALT is set (46_sequencer_and_host.md R210). -/
def State.Runnable (s : State) : Prop := s.faulted = false ∧ s.halt = false

/-- `n` bytes from PC on can be fetched: each is backed, and PC does not pass 0xFFFF where that faults (R28, R52). -/
def Fetchable (s : State) (n : Nat) : Prop :=
  (∀ k < n, s.backed (s.pc + BitVec.ofNat 16 k) = true) ∧ (s.cfg.overflow = .wrap ∨ s.pc.toNat + n ≤ 65535)

/-- `t` is reached from `s` by steps. -/
inductive Steps : State → State → Prop
  | here (s : State) : Steps s s
  | more {s t u : State} : Steps s t → step t = .next u → Steps s u

/-- No state reached from `s` is faulted: no run from `s` raises OutOfBounds. -/
def State.NeverFaults (s : State) : Prop := ∀ t, Steps s t → t.faulted = false

end Sys2Proof.Machine
end

