-- ==== Sys2Proof/Certificates/Slice0/Obligations.lean ====
section
/-! DEFINITION. The statements for the provers. Each says what an instruction or the machine does, from the rules of spec/. -/

namespace Sys2Proof.Claims

open Sys2Proof.Machine

/-! ### Words the statements share -/

/-- FAULTED and the fault record keep their values. -/
def KeepsLatch (s t : State) : Prop := t.faulted = s.faulted ∧ t.record = s.record

/-- Every memory byte reads as before. -/
def KeepsMemory (s t : State) : Prop := ∀ a : Word, t.byte a = s.byte a

/-- `t` is a fault state with this cause, this info and this fault_pc (60_exceptions.md R241, R246). -/
def FaultState (t : State) (e : OutOfBounds) (faultPc : Word) : Prop :=
  t.faulted = true ∧ t.record.cause = e.kind.cause ∧ t.record.info = e.info ∧ t.record.faultPc = faultPc

/-- The address of the opcode byte of an instruction whose bytes are fetched: PC is past them (40_execution_model.md R112). -/
def startOf (i : Instr) (s : State) : Word := s.pc - BitVec.ofNat 16 i.length

/-- The latch is kept, or `t` is a fault state whose fault_pc is the instruction's address. -/
def KeepsLatchOrFaults (i : Instr) (s t : State) : Prop :=
  KeepsLatch s t ∨ (t.faulted = true ∧ t.record.faultPc = startOf i s)

/-- `i` is the form `imm v` or a form `reg k` whose register holds `v`: the operand of R115 is `v`. -/
def OperandIs (s : State) (imm : Byte → Instr) (reg : RegIx → Instr) (i : Instr) (v : Byte) : Prop :=
  i = imm v ∨ ∃ k : Gpr, i = reg k.index ∧ v = s.gpr k

/-- `i` is the form `abs addr` or the HL form with HL = `addr`: the address of R114 is `addr`. -/
def AddressIs (s : State) (abs : Word → Instr) (hl : Instr) (i : Instr) (addr : Word) : Prop :=
  (i = abs addr ∧ addr = s.ea (.abs addr)) ∨ (i = hl ∧ addr = s.ea .hl)

/-- All but the general registers and F is the same. -/
def KeepsRest (s t : State) : Prop :=
  t.pc = s.pc ∧ t.sp = s.sp ∧ t.st = s.st ∧ t.mem = s.mem ∧ KeepsLatch s t ∧ t.cfg = s.cfg

/-- `t` is `s` but for register `g`, which holds `v`. -/
def ChangesOnlyGpr (g : Gpr) (v : Byte) (s t : State) : Prop :=
  t.gpr g = v ∧ (∀ k, k ≠ g → t.gpr k = s.gpr k) ∧ t.f = s.f ∧ KeepsRest s t

/-- The forms whose one result is x[r], with no flag and no store: MOV, LDR, SUB, NAND, NOR. -/
def ResultOnlyIn (r : RegIx) : Instr → Prop
  | .movImm r' _ | .movReg r' _ | .ldrAbs r' _ | .ldrHl r' => r' = r
  | .subImm r' _ | .subReg r' _ | .nandImm r' _ | .nandReg r' _ | .norImm r' _ | .norReg r' _ => r' = r
  | _ => False

/-- The instruction whose bytes stand at PC (30_encoding.md R89). -/
def instrAt (s : State) : Instr := decodeFields (s.byte s.pc) (s.byte (s.pc + 1#16)) (s.byte (s.pc + 2#16))

/-- The operand bytes a step reads at PC, with those read before a fetch fails (40_execution_model.md R111, R112). -/
def operandsRead (s : State) : List Byte :=
  match s.fetchByte with
  | .error _ => []
  | .ok (op, t) => (State.fetchBytes (operandCount op) t).1

/-- Operand byte `n` of the step: the byte read, or the free value that stands for one not read (log 6). -/
def operandOfStep (s : State) (n : Nat) : Byte := (operandsRead s).getD n (Config.freeByte (s.draws + n))

/-- The instruction of the opcode byte at PC and the operand bytes of the step. -/
def instrOfStep (s : State) : Instr := decodeFields (s.byte s.pc) (operandOfStep s 0) (operandOfStep s 1)

/-- Two states the core cannot tell apart by ZERO, CARRY and HALT: equal but for F[15:2] and S[15:1]. -/
def AgreeButStorage (s t : State) : Prop :=
  t.cfg = s.cfg ∧ (∀ g, t.gpr g = s.gpr g) ∧ t.pc = s.pc ∧ t.sp = s.sp ∧ t.mem = s.mem ∧ t.faulted = s.faulted ∧
    t.record = s.record ∧ t.draws = s.draws ∧ t.zero = s.zero ∧ t.carry = s.carry ∧ t.halt = s.halt

/-- The opcode byte with the fields that R88 calls ignored set to zero. -/
def canonicalOpcodeByte (op : Byte) : Byte :=
  match Opcode.ofBits (opcodeField op) with
  | .nop | .lhl | .hlt => op &&& 0xF0#8
  | .pop => op &&& 0xF7#8
  | .jmp | .jz => op &&& 0xF8#8
  | .push => if modeField op then op else op &&& 0xF8#8
  | .mov | .ldr | .str | .add | .adc | .cmp | .sub | .nand | .nor => op

/-- The first operand byte with bits 7:3 zero where it is a selector (R84, R88). -/
def canonicalOperandByte (op b : Byte) : Byte :=
  match Opcode.ofBits (opcodeField op) with
  | .mov | .add | .adc | .cmp | .sub | .nand | .nor => if modeField op then b &&& 0x07#8 else b
  | .nop | .ldr | .str | .lhl | .push | .pop | .jmp | .jz | .hlt => b

end Sys2Proof.Claims

open Sys2Proof Sys2Proof.Machine Sys2Proof.Claims

/-! ### Reset and the invariant -/

/-- 10_state.md R42: every row of the reset table, for every configuration. -/
def Obligations.ResetLeavesEverythingZero : Prop :=
  ∀ cfg : Config,
    (∀ g, (State.resetWith cfg).gpr g = 0#8) ∧ (State.resetWith cfg).pc = 0#16 ∧ (State.resetWith cfg).sp = 0#16 ∧
      (State.resetWith cfg).f = 0#16 ∧ (State.resetWith cfg).st = 0#16 ∧
      (∀ a, (State.resetWith cfg).byte a = 0x00#8) ∧ (State.resetWith cfg).faulted = false

/-- The invariant of Safety.lean holds at reset, for every valid configuration, that of `State.reset` among them, which is
the model's choice (log 1). -/
def Obligations.ResetMeetsInvariant : Prop :=
  (∀ cfg : Config, cfg.Valid → (State.resetWith cfg).Inv) ∧ State.reset.Inv ∧
    State.reset = State.resetWith { memSize := 65536, overflow := .wrap }

/-- Every step keeps the invariant: memory stays in its canonical form and inside 0 .. MEM_SIZE-1, and the fault record is
clear or one that R241 allows, as FAULTED says. -/
def Obligations.StepKeepsInvariant : Prop :=
  ∀ s t : State, s.Inv → step s = .next t → t.Inv

/-- Every host command keeps the invariant (46_sequencer_and_host.md R224), a RUN of any length among them. -/
def Obligations.CommandsKeepInvariant : Prop :=
  ∀ (bound : Nat) (c : Command) (s t : State) (r : Reply), s.Inv → s.perform bound c = some (r, t) → t.Inv

/-! ### Encoding -/

/-- Decoding an encoded instruction gives it back, whatever bytes follow it: no bit of an encoding is dropped. -/
def Obligations.DecodeEncodeAgree : Prop :=
  ∀ (i : Instr) (rest : List Byte), decode (encode i ++ rest) = .ok (i, rest)

/-- 30_encoding.md R83, both ways: the three fields of an encoded byte are recovered, and every byte is the encoding of its
fields. -/
def Obligations.OpcodeByteEncodesItsFields : Prop :=
  (∀ (o : Opcode) (m : Bool) (r : RegIx),
    (opcodeByte o m r).toNat = 16 * o.bits.toNat + 8 * m.toNat + r.toNat ∧
      Opcode.ofBits (opcodeField (opcodeByte o m r)) = o ∧ modeField (opcodeByte o m r) = m ∧
      regField (opcodeByte o m r) = r) ∧
    ∀ b : Byte, opcodeByte (Opcode.ofBits (opcodeField b)) (modeField b) (regField b) = b

/-- 30_encoding.md R88, R92: setting every ignored field to zero changes no decoding, and encoding what was decoded gives
exactly the canonical bytes. -/
def Obligations.EncodeGivesTheCanonicalBytes : Prop :=
  ∀ op b1 b2 : Byte,
    decodeFields (canonicalOpcodeByte op) (canonicalOperandByte op b1) b2 = decodeFields op b1 b2 ∧
      encode (decodeFields op b1 b2) =
        canonicalOpcodeByte op :: [canonicalOperandByte op b1, b2].take (operandCount op)

/-- 30_encoding.md R82, R86, R90: no byte value is refused, only missing bytes; the count of operand bytes is R86's table; and
what is decoded is as long as R86 says. -/
def Obligations.DecodeTakesExactlyTheBytesOfTheLengthTable : Prop :=
  (∀ (op : Byte) (rest : List Byte),
    (operandCount op ≤ rest.length → ∃ i, decode (op :: rest) = .ok (i, rest.drop (operandCount op)) ∧
      i.length = 1 + operandCount op) ∧
    (rest.length < operandCount op → ∃ e, decode (op :: rest) = .error e)) ∧
  ∀ op : Byte, operandCount op =
    match op.toNat / 16, modeField op with
    | 0, _ | 6, _ | 15, _ => 0
    | 4, _ => 2
    | 5, false => 1
    | 5, true => 0
    | 2, false | 3, false | 7, false | 8, false => 2
    | 2, true | 3, true | 7, true | 8, true => 0
    | _, _ => 1

/-- Words written out from R89 and from 95_test_vectors.md decode to the instructions they stand for: one for each row of
R89, so that each of the 16 opcode values and each mode bit is fixed. -/
def Obligations.SampleWordsDecode : Prop :=
  (decodeTableWord 8 0x07 = some .nop ∧ decodeTableWord 16 0x0610 = some (.movImm 0 0x06) ∧
    decodeTableWord 16 0xF918 = some (.movReg 0 1) ∧ decodeTableWord 24 0x123422 = some (.ldrAbs 2 0x1234) ∧
    decodeTableWord 8 0x2C = some (.ldrHl 4) ∧ decodeTableWord 24 0x020031 = some (.strAbs 1 0x0200) ∧
    decodeTableWord 8 0x3D = some (.strHl 5) ∧ decodeTableWord 24 0xABCD47 = some (.lhl 0xCD 0xAB)) ∧
  (decodeTableWord 16 0x7750 = some (.pushImm 0x77) ∧ decodeTableWord 8 0x59 = some (.pushReg 1) ∧
    decodeTableWord 8 0x68 = some (.pop 0) ∧ decodeTableWord 24 0x123470 = some (.jmpAbs 0x1234) ∧
    decodeTableWord 8 0x7D = some .jmpHl ∧ decodeTableWord 24 0x123480 = some (.jzAbs 0x1234) ∧
    decodeTableWord 8 0x88 = some .jzHl) ∧
  (decodeTableWord 16 0x0191 = some (.addImm 1 0x01) ∧ decodeTableWord 16 0x0298 = some (.addReg 0 2) ∧
    decodeTableWord 16 0xFFA2 = some (.adcImm 2 0xFF) ∧ decodeTableWord 16 0x03A9 = some (.adcReg 1 3) ∧
    decodeTableWord 16 0x05B0 = some (.cmpImm 0 0x05) ∧ decodeTableWord 16 0x05BC = some (.cmpReg 4 5)) ∧
  (decodeTableWord 16 0x01C3 = some (.subImm 3 0x01) ∧ decodeTableWord 16 0x02C9 = some (.subReg 1 2) ∧
    decodeTableWord 16 0x3CD0 = some (.nandImm 0 0x3C) ∧ decodeTableWord 16 0x01DA = some (.nandReg 2 1) ∧
    decodeTableWord 16 0x00E3 = some (.norImm 3 0x00) ∧ decodeTableWord 16 0x04E8 = some (.norReg 0 4) ∧
    decodeTableWord 8 0xFF = some .hlt)

/-! ### The step -/

/-- A step runs the decoded instruction: where neither latch stops it and the instruction's bytes can be fetched, `step` is
`exec` of what the bytes at PC decode to, with PC already past those bytes (40_execution_model.md R110, R112). -/
def Obligations.StepRunsTheDecodedInstruction : Prop :=
  ∀ (s : State) (i : Instr) (rest : List Byte), s.Runnable →
    decode [s.byte s.pc, s.byte (s.pc + 1#16), s.byte (s.pc + 2#16)] = .ok (i, rest) → Fetchable s i.length →
    step s = exec i (s.setPc (s.pc + BitVec.ofNat 16 i.length))

/-- A word placed by `withFetchWord` is what the very next step fetches and runs, wherever three bytes at PC can be fetched.
`withFetchWord` is the model's own (log 14). -/
def Obligations.PlacedWordRunsNext : Prop :=
  ∀ (s : State) (nbits w : Nat) (i : Instr), Memory.wf s.mem → Fetchable s 3 → decodeTableWord nbits w = some i →
    step (s.withFetchWord nbits w) =
      exec i ((s.withFetchWord nbits w).setPc (s.pc + BitVec.ofNat 16 i.length))

/-- 46_sequencer_and_host.md R210, R211: the two early returns, else one `Execute1()` and OK or FAULT with the record. -/
def Obligations.StepReportsOneOfThreeOutcomes : Prop :=
  ∀ s : State,
    (s.faulted = true → s.stepReply = (.fault s.record, s)) ∧
    (s.faulted = false → s.halt = true → s.stepReply = (.halted, s)) ∧
    (s.Runnable → ∃ t, s.execute1 = .next t ∧
      (t.faulted = false → s.stepReply = (.ok, t)) ∧ (t.faulted = true → s.stepReply = (.fault t.record, t)))

/-- The model's `step` beside `step()`: of a faulted core it answers the model's one fault, of a halted core the same state
(log 3, log 17). -/
def Obligations.FaultedAndHaltedStepsDoNothing : Prop :=
  ∀ s : State,
    (s.faulted = true → step s = .fault (.coreFaulted s.record)) ∧
    (s.faulted = false → s.halt = true → step s = .next s)

/-- 70_reset_and_hazards.md R279: a step of a core that is not faulted always completes, with at most four accesses. -/
def Obligations.EveryStepTerminates : Prop :=
  ∀ s : State, (s.faulted = false → ∃ t, step s = .next t) ∧ s.accesses.length ≤ 4

/-- 10_state.md R29, 20_memory.md R52: an opcode fetch at or past MEM_SIZE enters the fault state with that address; only PC
is left unspecified (log 7). -/
def Obligations.OpcodeFetchOutOfRangeFaults : Prop :=
  ∀ s : State, s.Runnable → s.cfg.memSize ≤ s.pc.toNat →
    ∃ t, step s = .next t ∧ FaultState t ⟨.mem, s.pc.toNat⟩ s.pc ∧ (∀ g, t.gpr g = s.gpr g) ∧ t.sp = s.sp ∧ t.f = s.f ∧
      t.st = s.st ∧ KeepsMemory s t

/-- 20_memory.md R52, 40_execution_model.md R111, R112: the first operand byte of an instruction that lies at or past
MEM_SIZE enters the fault state with its address; fault_pc is the address of the opcode byte. -/
def Obligations.OperandFetchOutOfRangeFaults : Prop :=
  ∀ (s : State) (k : Nat), s.Runnable → 1 ≤ k → k ≤ operandCount (s.byte s.pc) → Fetchable s k →
    s.cfg.memSize ≤ (s.pc + BitVec.ofNat 16 k).toNat →
    ∃ t, step s = .next t ∧ FaultState t ⟨.mem, (s.pc + BitVec.ofNat 16 k).toNat⟩ s.pc

/-- 10_state.md R28: under WRAP16_OVERFLOW = fault the fetch whose PC advance leaves 0xFFFF raises OutOfBounds(MEM, 0x10000),
be it the opcode fetch (k = 0) or an operand fetch. -/
def Obligations.PcOverflowFaultsWhereConfigured : Prop :=
  ∀ (s : State) (k : Nat), s.Runnable → s.cfg.overflow = .fault → k ≤ operandCount (s.byte s.pc) →
    s.pc.toNat + k = 0xFFFF → (∀ j ≤ k, s.backed (s.pc + BitVec.ofNat 16 j) = true) →
    ∃ t, step s = .next t ∧ FaultState t ⟨.mem, 0x10000⟩ s.pc

/-- 60_exceptions.md R247(a): a step that faults leaves every location the rule of its instruction does not write. By opcode,
the registers and flags a rule writes are those of R22, R30 to R33 and R36, and only STR and PUSH write memory: STR the byte
at EA, PUSH the byte at the decremented SP. Operand bytes that were not read are free (log 6); an opcode byte that cannot be
read leaves all but PC (log 7); and once all bytes are fetched a fault leaves all of memory (log 6). -/
def Obligations.FaultKeepsWhatTheRuleDoesNotWrite : Prop :=
  ∀ s t : State, s.Runnable → step s = .next t → t.faulted = true →
    let o := Opcode.ofBits (opcodeField (s.byte s.pc))
    let m := modeField (s.byte s.pc)
    let r := regField (s.byte s.pc)
    t.record.faultPc = s.pc ∧ s.SameStorage t ∧
      (∀ loc, loc ∉ Instr.writes (instrOfStep s) s → Loc.Same s t loc) ∧
      (s.backed s.pc = false → ∀ loc, loc ≠ .pc → Loc.Same s t loc) ∧
      (Fetchable s (1 + operandCount (s.byte s.pc)) → KeepsMemory s t) ∧
      (o ≠ .push → o ≠ .pop → t.sp = s.sp) ∧
      (∀ g : Gpr, t.gpr g = s.gpr g ∨
        (g.index = r ∧ (o = .mov ∨ o = .ldr ∨ o = .pop ∨ o = .add ∨ o = .adc ∨ o = .sub ∨ o = .nand ∨ o = .nor)) ∨
        ((g = .L ∨ g = .H) ∧ o = .lhl)) ∧
      (o ≠ .cmp → t.zero = s.zero) ∧ (o ≠ .add → o ≠ .adc → t.carry = s.carry) ∧ (o ≠ .hlt → t.halt = s.halt) ∧
      (o ≠ .str → o ≠ .push → KeepsMemory s t) ∧
      (o = .str → m = true → ∀ a, a ≠ s.ea .hl → t.byte a = s.byte a) ∧
      (o = .str → m = false → ∀ a, a ≠ s.ea (.abs (wordOfBytes (operandOfStep s 0) (operandOfStep s 1))) →
        t.byte a = s.byte a) ∧
      (o = .push → ∀ a, Loc.mem a ∉ s.pushLoc → t.byte a = s.byte a)

/-- 40_execution_model.md R119: an instruction, completing or faulting, changes only the locations its rule writes, PC
included; the configuration and the unassigned bits of F and S stay. That a PUSH whose decrement faults writes no memory
byte is the model's reading (log 6). -/
def Obligations.InstructionChangesOnlyWhatItsRuleWrites : Prop :=
  ∀ (i : Instr) (s t : State), exec i s = .next t →
    (∀ loc : Loc, loc ∉ Instr.writes i s → Loc.Same s t loc) ∧ s.SameStorage t ∧ KeepsLatchOrFaults i s t

/-- 10_state.md R27: a step that completes advances PC by the bytes the instruction consumed, 1 and the operand bytes of R86,
but for JMP, and for JZ with ZERO clear, which overwrite PC with the target. -/
def Obligations.PcAdvancesByTheBytesConsumed : Prop :=
  ∀ s t : State, s.Runnable → step s = .next t → t.faulted = false →
    match instrAt s with
    | .jmpAbs a => t.pc = a
    | .jmpHl => t.pc = s.hl
    | .jzAbs a => t.pc = if s.zero then s.pc + BitVec.ofNat 16 (1 + operandCount (s.byte s.pc)) else a
    | .jzHl => t.pc = if s.zero then s.pc + BitVec.ofNat 16 (1 + operandCount (s.byte s.pc)) else s.hl
    | _ => t.pc = s.pc + BitVec.ofNat 16 (1 + operandCount (s.byte s.pc))

/-! ### Frames -/

/-- The frame of MOV, LDR, SUB, NAND and NOR in every form, completing or faulting: only x[r] and PC may change. -/
def Obligations.RegisterResultFrame : Prop :=
  ∀ (i : Instr) (r : RegIx) (s t : State), ResultOnlyIn r i → exec i s = .next t →
    (∀ g : Gpr, g.index ≠ r → t.gpr g = s.gpr g) ∧ t.sp = s.sp ∧ t.f = s.f ∧ t.st = s.st ∧ KeepsMemory s t ∧
      t.cfg = s.cfg ∧ KeepsLatchOrFaults i s t

/-- The frame of ADD, ADC and CMP in every form: ADD and ADC may change x[r], CARRY and PC, CMP only ZERO and PC. -/
def Obligations.FlagWriterFrame : Prop :=
  ∀ (i : Instr) (r : RegIx) (s t : State), exec i s = .next t →
    ((∃ v, i = .addImm r v) ∨ (∃ k, i = .addReg r k) ∨ (∃ v, i = .adcImm r v) ∨ (∃ k, i = .adcReg r k) →
      (∀ g : Gpr, g.index ≠ r → t.gpr g = s.gpr g) ∧ (∀ n, n ≠ 1 → t.f.getLsbD n = s.f.getLsbD n) ∧ t.sp = s.sp ∧
        t.st = s.st ∧ KeepsMemory s t ∧ t.cfg = s.cfg ∧ KeepsLatchOrFaults i s t) ∧
    ((∃ v, i = .cmpImm r v) ∨ (∃ k, i = .cmpReg r k) →
      (∀ g : Gpr, t.gpr g = s.gpr g) ∧ (∀ n, n ≠ 0 → t.f.getLsbD n = s.f.getLsbD n) ∧ t.sp = s.sp ∧
        t.st = s.st ∧ KeepsMemory s t ∧ t.cfg = s.cfg ∧ KeepsLatchOrFaults i s t)

/-- The frame of STR in both forms: no register and no flag changes, and of memory only the byte at EA, which R114 gives. -/
def Obligations.StoreFrame : Prop :=
  ∀ (i : Instr) (r : RegIx) (addr : Word) (s t : State), AddressIs s (.strAbs r) (.strHl r) i addr →
    exec i s = .next t →
    (∀ a, a ≠ addr → t.byte a = s.byte a) ∧ (∀ g, t.gpr g = s.gpr g) ∧ t.sp = s.sp ∧ t.f = s.f ∧ t.st = s.st ∧
      t.cfg = s.cfg ∧ KeepsLatchOrFaults i s t

/-- The frame of PUSH and POP in every form. PUSH may change SP, PC and the byte at the decremented SP (none where the
decrement itself faults, which is the model's reading, log 6); POP may change x[r], SP and PC and stores nothing. -/
def Obligations.StackFrame : Prop :=
  ∀ (i : Instr) (r : RegIx) (s t : State), exec i s = .next t →
    ((∃ v, i = .pushImm v) ∨ i = .pushReg r →
      (∀ addr, Config.decrement s.cfg s.sp = .ok addr → ∀ a, a ≠ addr → t.byte a = s.byte a) ∧
        (∀ e, Config.decrement s.cfg s.sp = .error e → KeepsMemory s t) ∧ (∀ g, t.gpr g = s.gpr g) ∧ t.f = s.f ∧
        t.st = s.st ∧ t.cfg = s.cfg ∧ KeepsLatchOrFaults i s t) ∧
    (i = .pop r →
      KeepsMemory s t ∧ (∀ g : Gpr, g.index ≠ r → t.gpr g = s.gpr g) ∧ t.f = s.f ∧ t.st = s.st ∧ t.cfg = s.cfg ∧
        KeepsLatchOrFaults i s t)

/-- The frame of LHL, JMP, JZ, NOP and HLT in every form: LHL changes only L and H, JMP and JZ only PC, NOP nothing, HLT only
S[0]. None of them can fault once its bytes are fetched, so the latch stays. -/
def Obligations.LhlAndControlFrame : Prop :=
  ∀ (i : Instr) (s t : State), exec i s = .next t →
    ((∃ lo hi, i = .lhl lo hi) → (∀ g, g ≠ .L → g ≠ .H → t.gpr g = s.gpr g) ∧ t.f = s.f ∧ KeepsRest s t) ∧
    ((∃ a, i = .jmpAbs a) ∨ i = .jmpHl ∨ (∃ a, i = .jzAbs a) ∨ i = .jzHl →
      (∀ g, t.gpr g = s.gpr g) ∧ t.sp = s.sp ∧ t.f = s.f ∧ t.st = s.st ∧ t.mem = s.mem ∧ KeepsLatch s t ∧
        t.cfg = s.cfg) ∧
    (i = .nop → t = s) ∧
    (i = .hlt → (∀ g, t.gpr g = s.gpr g) ∧ t.pc = s.pc ∧ t.sp = s.sp ∧ t.f = s.f ∧ t.mem = s.mem ∧ KeepsLatch s t ∧
      t.cfg = s.cfg ∧ ∀ n, n ≠ 0 → t.st.getLsbD n = s.st.getLsbD n)

/-! ### Results: where each instruction completes, and with what -/

/-- MOV (R130) completes for every register: x[r] holds the operand, and nothing else changes. -/
def Obligations.MovLoadsTheOperand : Prop :=
  ∀ (s : State) (g : Gpr) (i : Instr) (v : Byte), OperandIs s (.movImm g.index) (.movReg g.index) i v →
    ∃ t, exec i s = .next t ∧ ChangesOnlyGpr g v s t

/-- LDR (R131) completes for every register and backed address: x[r] holds the byte at EA, formed before the write. -/
def Obligations.LdrLoadsTheByte : Prop :=
  ∀ (s : State) (g : Gpr) (i : Instr) (addr : Word), AddressIs s (.ldrAbs g.index) (.ldrHl g.index) i addr →
    addr.toNat < s.cfg.memSize → ∃ t, exec i s = .next t ∧ ChangesOnlyGpr g (s.byte addr) s t

/-- STR (R132) completes for every register and backed address: the byte at EA is x[r], every other byte and all else is as
before. -/
def Obligations.StrStoresTheRegister : Prop :=
  ∀ (s : State) (g : Gpr) (i : Instr) (addr : Word), Memory.wf s.mem →
    AddressIs s (.strAbs g.index) (.strHl g.index) i addr → addr.toNat < s.cfg.memSize →
    ∃ t, exec i s = .next t ∧ t.byte addr = s.gpr g ∧ (∀ a, a ≠ addr → t.byte a = s.byte a) ∧
      (∀ k, t.gpr k = s.gpr k) ∧ t.pc = s.pc ∧ t.sp = s.sp ∧ t.f = s.f ∧ t.st = s.st ∧ KeepsLatch s t ∧ t.cfg = s.cfg

/-- LHL (R133) completes always: L and H hold the two bytes, HL is their little-endian value, nothing else changes. -/
def Obligations.LhlLoadsBothBytes : Prop :=
  ∀ (s : State) (lo hi : Byte),
    ∃ t, exec (.lhl lo hi) s = .next t ∧ t.gpr .L = lo ∧ t.gpr .H = hi ∧ t.hl.toNat = 256 * hi.toNat + lo.toNat ∧
      (∀ g, g ≠ .L → g ≠ .H → t.gpr g = s.gpr g) ∧ t.f = s.f ∧ KeepsRest s t

/-- PUSH (R150) completes where SP can be decremented and the byte there is backed: SP goes down by one, modulo 2^16, and the
byte at the new SP is the operand. -/
def Obligations.PushStoresBelowSp : Prop :=
  ∀ (s : State) (i : Instr) (v : Byte), Memory.wf s.mem → OperandIs s .pushImm .pushReg i v →
    (s.cfg.overflow = .wrap ∨ s.sp ≠ 0x0000#16) → (s.sp - 1#16).toNat < s.cfg.memSize →
    ∃ t, exec i s = .next t ∧ t.sp = s.sp - 1#16 ∧ t.byte (s.sp - 1#16) = v ∧
      (∀ a, a ≠ s.sp - 1#16 → t.byte a = s.byte a) ∧ (∀ g, t.gpr g = s.gpr g) ∧ t.pc = s.pc ∧ t.f = s.f ∧
      t.st = s.st ∧ KeepsLatch s t ∧ t.cfg = s.cfg

/-- POP (R151) completes for every register where the byte at SP is backed and SP can be incremented: x[r] holds that byte and
SP goes up by one, modulo 2^16. -/
def Obligations.PopLoadsTheByteAtSp : Prop :=
  ∀ (s : State) (g : Gpr), s.sp.toNat < s.cfg.memSize → (s.cfg.overflow = .wrap ∨ s.sp ≠ 0xFFFF#16) →
    ∃ t, exec (.pop g.index) s = .next t ∧ t.sp = s.sp + 1#16 ∧ t.gpr g = s.byte s.sp ∧
      (∀ k, k ≠ g → t.gpr k = s.gpr k) ∧ t.pc = s.pc ∧ t.f = s.f ∧ t.st = s.st ∧ t.mem = s.mem ∧ KeepsLatch s t ∧
      t.cfg = s.cfg

/-- JMP and JZ (R160, R161) complete always. JMP sets PC to EA. JZ does so exactly when ZERO is CLEAR, and else leaves PC at
the next instruction. Nothing but PC changes. -/
def Obligations.JumpsSetPc : Prop :=
  ∀ (s : State) (i : Instr) (addr : Word),
    (AddressIs s .jmpAbs .jmpHl i addr → exec i s = .next (s.setPc addr)) ∧
    (AddressIs s .jzAbs .jzHl i addr →
      exec i s = .next (s.setPc (if s.zero = false then addr else s.pc)))

/-- ADD (R172) completes for every register and operand: the sum modulo 256, CARRY exactly when it exceeds 255, ZERO and the
old CARRY play no part. -/
def Obligations.AddWrapsAndSetsCarry : Prop :=
  ∀ (s : State) (g : Gpr) (i : Instr) (v : Byte), OperandIs s (.addImm g.index) (.addReg g.index) i v →
    ∃ t, exec i s = .next t ∧ (t.gpr g).toNat = ((s.gpr g).toNat + v.toNat) % 256 ∧
      t.carry = decide ((s.gpr g).toNat + v.toNat > 255) ∧ (∀ n, n ≠ 1 → t.f.getLsbD n = s.f.getLsbD n) ∧
      (∀ k, k ≠ g → t.gpr k = s.gpr k) ∧ KeepsRest s t

/-- ADC (R173) completes for every register and operand: the sum with the old CARRY, and CARRY from that whole sum (D19). -/
def Obligations.AdcAddsTheCarryIn : Prop :=
  ∀ (s : State) (g : Gpr) (i : Instr) (v : Byte), OperandIs s (.adcImm g.index) (.adcReg g.index) i v →
    ∃ t, exec i s = .next t ∧ (t.gpr g).toNat = ((s.gpr g).toNat + v.toNat + s.carry.toNat) % 256 ∧
      t.carry = decide ((s.gpr g).toNat + v.toNat + s.carry.toNat > 255) ∧
      (∀ n, n ≠ 1 → t.f.getLsbD n = s.f.getLsbD n) ∧ (∀ k, k ≠ g → t.gpr k = s.gpr k) ∧ KeepsRest s t

/-- CMP (R174) completes for every register and operand: ZERO is set exactly when the two are equal, and no register and no
other flag changes. -/
def Obligations.CmpSetsZeroOnEquality : Prop :=
  ∀ (s : State) (g : Gpr) (i : Instr) (v : Byte), OperandIs s (.cmpImm g.index) (.cmpReg g.index) i v →
    ∃ t, exec i s = .next t ∧ (t.zero = true ↔ s.gpr g = v) ∧ (∀ k, t.gpr k = s.gpr k) ∧
      (∀ n, n ≠ 0 → t.f.getLsbD n = s.f.getLsbD n) ∧ KeepsRest s t

/-- SUB (R175) completes for every register and operand: the difference modulo 256, and no flag changes. -/
def Obligations.SubWrapsWithoutFlags : Prop :=
  ∀ (s : State) (g : Gpr) (i : Instr) (v : Byte), OperandIs s (.subImm g.index) (.subReg g.index) i v →
    ∃ t w, exec i s = .next t ∧ ChangesOnlyGpr g w s t ∧ w.toNat = ((s.gpr g).toNat + 256 - v.toNat) % 256

/-- NAND and NOR (R176, R177) complete for every register and operand: bit for bit not-and and not-or, and no flag changes. -/
def Obligations.NandAndNorComplementWithoutFlags : Prop :=
  ∀ (s : State) (g : Gpr) (i : Instr) (v : Byte),
    (OperandIs s (.nandImm g.index) (.nandReg g.index) i v →
      ∃ t w, exec i s = .next t ∧ ChangesOnlyGpr g w s t ∧
        ∀ n, n < 8 → w.getLsbD n = !((s.gpr g).getLsbD n && v.getLsbD n)) ∧
    (OperandIs s (.norImm g.index) (.norReg g.index) i v →
      ∃ t w, exec i s = .next t ∧ ChangesOnlyGpr g w s t ∧
        ∀ n, n < 8 → w.getLsbD n = !((s.gpr g).getLsbD n || v.getLsbD n))

/-- NOP and HLT (R200, R201) complete always: NOP changes nothing past its fetch, HLT sets S[0] and changes nothing else. -/
def Obligations.NopAndHltComplete : Prop :=
  ∀ s : State, exec .nop s = .next s ∧
    ∃ t, exec .hlt s = .next t ∧ t.halt = true ∧ (∀ n, n ≠ 0 → t.st.getLsbD n = s.st.getLsbD n) ∧
      (∀ g, t.gpr g = s.gpr g) ∧ t.pc = s.pc ∧ t.sp = s.sp ∧ t.f = s.f ∧ t.mem = s.mem ∧ KeepsLatch s t ∧ t.cfg = s.cfg

/-! ### Where instructions fault -/

/-- 30_encoding.md R91, 60_exceptions.md R249: an instruction that accesses a register 6 or 7 enters the fault state, and the
record names sel before r. LDR and POP reach their register only after their memory read, so that is premised to succeed. That
no memory byte changes is, for STR and PUSH, the model's reading (log 6). -/
def Obligations.MissingRegisterFaults : Prop :=
  ∀ (i : Instr) (s : State), i.wellFormed = false →
    (∀ r a, i = .ldrAbs r a → s.backed a = true) → (∀ r, i = .ldrHl r → s.backed s.hl = true) →
    (∀ r, i = .pop r → s.backed s.sp = true) →
    ∃ t r, exec i s = .next t ∧ i.accessed.reverse.find? (fun r => !RegIx.named r) = some r ∧
      FaultState t ⟨.reg, r.toNat⟩ (startOf i s) ∧ KeepsMemory s t

/-- 20_memory.md R52, R53, 60_exceptions.md R242, R249: a data or stack access at or past MEM_SIZE enters the fault state with
that address, and no memory byte changes. LDR and POP report it before any register; STR and PUSH read their register
first. -/
def Obligations.DataAccessOutOfRangeFaults : Prop :=
  ∀ (s : State) (i : Instr) (r : RegIx) (g : Gpr) (addr : Word) (v : Byte), s.cfg.memSize ≤ addr.toNat →
    (AddressIs s (.ldrAbs r) (.ldrHl r) i addr ∨ AddressIs s (.strAbs g.index) (.strHl g.index) i addr ∨
      (i = .pop r ∧ addr = s.sp) ∨
      (OperandIs s .pushImm .pushReg i v ∧ (s.cfg.overflow = .wrap ∨ s.sp ≠ 0x0000#16) ∧ addr = s.sp - 1#16)) →
    ∃ t, exec i s = .next t ∧ FaultState t ⟨.mem, addr.toNat⟩ (startOf i s) ∧ KeepsMemory s t

/-- 10_state.md R30: under WRAP16_OVERFLOW = fault a PUSH at SP = 0x0000 raises OutOfBounds(MEM, -1), and a POP at
SP = 0xFFFF raises OutOfBounds(MEM, 0x10000) at its increment. That the PUSH changes no memory byte is the model's reading
(log 6). -/
def Obligations.SpOverflowFaultsWhereConfigured : Prop :=
  ∀ (s : State) (i : Instr) (v : Byte) (g : Gpr), s.cfg.overflow = .fault →
    (OperandIs s .pushImm .pushReg i v → s.sp = 0x0000#16 →
      ∃ t, exec i s = .next t ∧ FaultState t ⟨.mem, -1⟩ (startOf i s) ∧ KeepsMemory s t) ∧
    (s.sp = 0xFFFF#16 → s.backed s.sp = true →
      ∃ t, exec (.pop g.index) s = .next t ∧ FaultState t ⟨.mem, 0x10000⟩ (startOf (.pop g.index) s) ∧ KeepsMemory s t)

/-- 30_encoding.md R91, 60_exceptions.md R242: an instruction whose accessed registers all exist never raises a register
fault; NOP, HLT, LHL, JMP and JZ, which access none through a field, never fault at all once fetched. -/
def Obligations.OnlyMissingRegistersRaiseRegisterFaults : Prop :=
  ∀ (i : Instr) (s t : State), exec i s = .next t → s.faulted = false → t.faulted = true →
    (i.wellFormed = true → t.record.cause = .oobMem) ∧
      i ≠ .nop ∧ i ≠ .hlt ∧ (∀ lo hi, i ≠ .lhl lo hi) ∧ (∀ a, i ≠ .jmpAbs a) ∧ i ≠ .jmpHl ∧ (∀ a, i ≠ .jzAbs a) ∧
      i ≠ .jzHl

/-- 60_exceptions.md R242: with MEM_SIZE = 65536 and WRAP16_OVERFLOW = wrap the only fault a step can enter is a register
fault, and its info is 6 or 7. -/
def Obligations.FullMemoryLeavesOnlyRegisterFaults : Prop :=
  ∀ s t : State, s.cfg = { memSize := 65536, overflow := .wrap } → s.Runnable → step s = .next t → t.faulted = true →
    t.record.cause = .oobReg ∧ (t.record.info = 6 ∨ t.record.info = 7)

/-! ### Rules about the whole machine -/

/-- 10_state.md R30, R32, R33, R36: of the instructions only CMP changes ZERO, only ADD and ADC change CARRY, only HLT
changes HALT, and only PUSH and POP change SP. -/
def Obligations.FlagsStatusAndSpHaveOneWriter : Prop :=
  ∀ (i : Instr) (s t : State), exec i s = .next t →
    (t.zero ≠ s.zero → (∃ r v, i = .cmpImm r v) ∨ ∃ r k, i = .cmpReg r k) ∧
    (t.carry ≠ s.carry → (∃ r v, i = .addImm r v) ∨ (∃ r k, i = .addReg r k) ∨ (∃ r v, i = .adcImm r v) ∨
      ∃ r k, i = .adcReg r k) ∧
    (t.halt ≠ s.halt → i = .hlt) ∧
    (t.sp ≠ s.sp → (∃ v, i = .pushImm v) ∨ (∃ r, i = .pushReg r) ∨ ∃ r, i = .pop r)

/-- 10_state.md R34: F[15:2] and S[15:1] are plain storage. No step reads them: from two states that differ only there, a
step that completes gives two states that differ only there, and a step that faults is matched by one with the same record;
and no step, completing or faulting, writes them. -/
def Obligations.NoStepReadsOrWritesStorageBits : Prop :=
  ∀ s s' t : State, AgreeButStorage s s' → step s = .next t →
    s.SameStorage t ∧
      ∃ t', step s' = .next t' ∧ s'.SameStorage t' ∧ t'.faulted = t.faulted ∧ t'.record = t.record ∧
        (t.faulted = false → AgreeButStorage t t')

/-- 10_state.md R24: HL is L | H << 8, and it changes only by LHL, by MOV, LDR, POP or an ALU operation with r = 4 or
r = 5, or by a host write of L or H (or a RESET). -/
def Obligations.HlIsTheCompositeOfLAndH : Prop :=
  (∀ s : State, s.hl.toNat = (s.gpr .L).toNat + 256 * (s.gpr .H).toNat) ∧
  (∀ (i : Instr) (s t : State), exec i s = .next t → t.hl ≠ s.hl →
    (∃ lo hi, i = .lhl lo hi) ∨
      ∃ r, (r = 4#3 ∨ r = 5#3) ∧
        (ResultOnlyIn r i ∨ i = .pop r ∨ (∃ v, i = .addImm r v) ∨ (∃ k, i = .addReg r k) ∨ (∃ v, i = .adcImm r v) ∨
          ∃ k, i = .adcReg r k)) ∧
  ∀ (bound : Nat) (c : Command) (s t : State) (r : Reply), s.perform bound c = some (r, t) → t.hl ≠ s.hl →
    c = .reset ∨ c = .step ∨ c = .run ∨ ∃ v, c = .writeGpr 4 v ∨ c = .writeGpr 5 v

/-- 20_memory.md R52, R53: a read or write of one byte, with the explicit check; a write changes exactly the one byte. -/
def Obligations.MemoryReadsAndWritesOneByte : Prop :=
  ∀ (s : State) (a : Word) (v : Byte),
    (s.cfg.memSize ≤ a.toNat →
      s.memRead a = .error ⟨.mem, a.toNat⟩ ∧ s.memWrite a v = .error ⟨.mem, a.toNat⟩) ∧
    (a.toNat < s.cfg.memSize → Memory.wf s.mem →
      s.memRead a = .ok (s.byte a) ∧
        ∃ t, s.memWrite a v = .ok t ∧ t.memRead a = .ok v ∧ (∀ b, b ≠ a → t.byte b = s.byte b) ∧
          (∀ g, t.gpr g = s.gpr g) ∧ t.f = s.f ∧ KeepsRest { s with mem := t.mem } t) ∧
    (s.cfg.memSize = 65536 → s.memRead a = .ok (s.byte a))

/-- 42_stack.md R152: PUSH of V, in either form, then POP into any register: V arrives and SP is as before. Between the two
anything may happen that leaves SP and the pushed byte. -/
def Obligations.PushThenPopMovesTheValue : Prop :=
  ∀ (s : State) (i : Instr) (v : Byte) (g : Gpr), Memory.wf s.mem → OperandIs s .pushImm .pushReg i v →
    (s.cfg.overflow = .wrap ∨ s.sp ≠ 0x0000#16) → (s.sp - 1#16).toNat < s.cfg.memSize →
    ∃ t, exec i s = .next t ∧
      ∀ u : State, u.cfg = t.cfg → u.sp = t.sp → u.byte t.sp = t.byte t.sp →
        ∃ w, exec (.pop g.index) u = .next w ∧ w.gpr g = v ∧ w.sp = s.sp

/-- 20_memory.md R68, 70_reset_and_hazards.md R276: a one-byte instruction stored by STR at the address right after the STR
is the instruction the next step runs. -/
def Obligations.StoreIsSeenByTheNextFetch : Prop :=
  ∀ (s : State) (g : Gpr), s.Runnable → Memory.wf s.mem → Fetchable s 4 →
    instrAt s = .strAbs g.index (s.pc + 3#16) → operandCount (s.gpr g) = 0 →
    ∃ t, step s = .next t ∧ step t = exec (decodeFields (s.gpr g) 0#8 0#8) (t.setPc (s.pc + 4#16))

/-- 30_encoding.md R94: the five idioms. -/
def Obligations.IdiomsHold : Prop :=
  ∀ (s : State) (g : Gpr) (w : Word),
    (∃ t, exec (.nandReg g.index g.index) s = .next t ∧ ChangesOnlyGpr g (~~~(s.gpr g)) s t) ∧
    (∃ t, exec (.norReg g.index g.index) s = .next t ∧ ChangesOnlyGpr g (~~~(s.gpr g)) s t) ∧
    (∃ t, exec (.subReg g.index g.index) s = .next t ∧ ChangesOnlyGpr g 0#8 s t) ∧
    (∃ t, exec (.cmpReg g.index g.index) s = .next t ∧ t.zero = true ∧
      ∀ pc, exec (.jzAbs w) (t.setPc pc) = .next (t.setPc pc) ∧
        exec .jzHl (t.setPc pc) = .next (t.setPc pc)) ∧
    ∃ t, exec (.lhl (lowByte w) (highByte w)) s = .next t ∧ ∀ pc, exec .jmpHl (t.setPc pc) = .next (t.setPc w)

/-- 43_branch.md R161: CMP of x[r] with a value, then JZ: taken exactly when they are unequal. -/
def Obligations.JzAfterCmpBranchesOnInequality : Prop :=
  ∀ (s : State) (g : Gpr) (i : Instr) (v : Byte) (target pc : Word),
    OperandIs s (.cmpImm g.index) (.cmpReg g.index) i v →
    ∃ t, exec i s = .next t ∧
      exec (.jzAbs target) (t.setPc pc) = .next (t.setPc (if s.gpr g = v then pc else target))

/-- 44_alu.md R173: with CARRY clear ADC does what ADD does; with CARRY set its result is one more than ADD's, in both
forms. -/
def Obligations.AdcIsAddPlusTheCarry : Prop :=
  ∀ (s : State) (g : Gpr) (v : Byte),
    (s.carry = false → exec (.adcImm g.index v) s = exec (.addImm g.index v) s ∧
      ∀ k : Gpr, exec (.adcReg g.index k.index) s = exec (.addReg g.index k.index) s) ∧
    (s.carry = true → ∃ t u, exec (.addImm g.index v) s = .next t ∧ exec (.adcImm g.index v) s = .next u ∧
      u.gpr g = t.gpr g + 1#8) ∧
    (s.carry = true → ∀ k : Gpr, ∃ t u, exec (.addReg g.index k.index) s = .next t ∧
      exec (.adcReg g.index k.index) s = .next u ∧ u.gpr g = t.gpr g + 1#8)

/-! ### The memory port -/

/-- 20_memory.md R65, R72: the accesses of a step are reads and then at most one write, the last; and for a step that
completes, a memory byte changes only by the write listed, and the byte at the address listed holds the value listed. That
the port is a list of accesses is the model's choice (log 16). -/
def Obligations.OnlyTheListedWriteChangesMemory : Prop :=
  ∀ s t : State, s.Runnable → Memory.wf s.mem → step s = .next t → t.faulted = false →
    (∀ a, t.byte a ≠ s.byte a → s.accesses.getLast? = some (.write a (t.byte a))) ∧
      (∀ a v, Access.write a v ∈ s.accesses → t.byte a = v) ∧
      ∀ x ∈ s.accesses.dropLast, ∃ a, x = .read a

/-! ### The host interface -/

/-- 46_sequencer_and_host.md R212, R215: a `run()` that ends has one end, whatever bound it is watched under; DONE leaves HALT
set and FAULTED clear, FAULT leaves FAULTED set with that record; and what it ends in is reached by steps from the state with
HALT cleared. The bound is the model's (log 12). -/
def Obligations.RunEndsInOneWay : Prop :=
  ∀ (s t : State) (r : RunReply) (n : Nat), s.run n = some (r, t) → s.faulted = false →
    (∀ m, n ≤ m → s.run m = some (r, t)) ∧ (∀ u q, s.RunEnds q u → q = r ∧ u = t) ∧ Steps (s.setHalt false) t ∧
      match r with
      | .done => t.halt = true ∧ t.faulted = false
      | .fault record => t.faulted = true ∧ t.record = record

/-- 43_branch.md R160, 46_sequencer_and_host.md R213: a `run()` of a jump to its own address never ends. -/
def Obligations.JumpToItselfNeverEnds : Prop :=
  ∀ (s : State) (n : Nat), s.faulted = false → Fetchable s 3 → instrAt s = .jmpAbs s.pc → s.run n = none

/-- 46_sequencer_and_host.md R217, in range: a load whose addresses are all backed answers OK, puts at each address the last
byte meant for it, and changes no other byte, no register and no latch. -/
def Obligations.LoadPlacesItsBytes : Prop :=
  ∀ (s : State) (start : Word) (bytes : List Byte), Memory.wf s.mem →
    (∀ i < bytes.length, s.backed (rangeAddr start i) = true) →
    ∃ t, s.load start bytes = (.ok (), t) ∧
      (∀ i (h : i < bytes.length), (∀ j, i < j → j < bytes.length → rangeAddr start j ≠ rangeAddr start i) →
        t.byte (rangeAddr start i) = bytes[i]) ∧
      (∀ a, (∀ i < bytes.length, a ≠ rangeAddr start i) → t.byte a = s.byte a) ∧
      (∀ g, t.gpr g = s.gpr g) ∧ t.pc = s.pc ∧ t.sp = s.sp ∧ t.f = s.f ∧ t.st = s.st ∧ KeepsLatch s t ∧ t.cfg = s.cfg

/-- 46_sequencer_and_host.md R217, D13: a load that reaches an address at or past MEM_SIZE answers ERROR with the first such
address; a byte of memory is then an old one or one of the load's, bytes outside the load are unchanged, and the core is not
faulted by it. -/
def Obligations.FailedLoadIsAnErrorOnly : Prop :=
  ∀ (s : State) (start : Word) (bytes : List Byte) (n : Nat), Memory.wf s.mem → n < bytes.length →
    (∀ i < n, s.backed (rangeAddr start i) = true) → s.cfg.memSize ≤ (rangeAddr start n).toNat →
    ∃ t, s.load start bytes = (.error ⟨.mem, (rangeAddr start n).toNat⟩, t) ∧
      (∀ a, t.byte a = s.byte a ∨ ∃ i, ∃ h : i < bytes.length, a = rangeAddr start i ∧ t.byte a = bytes[i]) ∧
      (∀ g, t.gpr g = s.gpr g) ∧ t.pc = s.pc ∧ t.sp = s.sp ∧ t.f = s.f ∧ t.st = s.st ∧ KeepsLatch s t ∧ t.cfg = s.cfg

/-- 46_sequencer_and_host.md R218, R219, R222: the indices name the registers of R222; what the host writes it reads back, and no other register, byte or latch changes; a
bad index or address is an error that changes nothing. The REG kind of a bad special-register index is the model's choice
(log 11). -/
def Obligations.HostAccessReadsWhatItWrote : Prop :=
  ∀ (s : State) (n i : Nat) (v : Byte) (w : Word) (a : Word), Memory.wf s.mem →
    (s.perform n (.readSpr 0) = some (.word s.pc, s) ∧ s.perform n (.readSpr 1) = some (.word s.sp, s) ∧
      s.perform n (.readSpr 2) = some (.word s.f, s) ∧ s.perform n (.readSpr 3) = some (.word s.st, s)) ∧
    (s.perform n (.readGpr 0) = some (.byte s.a, s) ∧ s.perform n (.readGpr 1) = some (.byte s.b, s) ∧
      s.perform n (.readGpr 2) = some (.byte s.c, s) ∧ s.perform n (.readGpr 3) = some (.byte s.d, s) ∧
      s.perform n (.readGpr 4) = some (.byte s.l, s) ∧ s.perform n (.readGpr 5) = some (.byte s.h, s)) ∧
    (i < 6 → ∃ t g, s.perform n (.writeGpr i v) = some (.ok, t) ∧ t.perform n (.readGpr i) = some (.byte v, t) ∧
      g.index.toNat = i ∧ ChangesOnlyGpr g v s t) ∧
    (i < 4 → ∃ t, s.perform n (.writeSpr i w) = some (.ok, t) ∧ t.perform n (.readSpr i) = some (.word w, t) ∧
      (∀ j, j ≠ i → (t.perform n (.readSpr j)).map Prod.fst = (s.perform n (.readSpr j)).map Prod.fst) ∧
      (∀ g, t.gpr g = s.gpr g) ∧ t.mem = s.mem ∧ KeepsLatch s t) ∧
    (a.toNat < s.cfg.memSize → ∃ t, s.perform n (.writeMem a v) = some (.ok, t) ∧
      t.perform n (.readMem a) = some (.byte v, t) ∧ (∀ b, b ≠ a → t.byte b = s.byte b) ∧ (∀ g, t.gpr g = s.gpr g) ∧
      t.pc = s.pc ∧ t.sp = s.sp ∧ t.f = s.f ∧ t.st = s.st ∧ KeepsLatch s t) ∧
    (6 ≤ i → s.perform n (.writeGpr i v) = some (.error ⟨.reg, i⟩, s) ∧
      s.perform n (.readGpr i) = some (.error ⟨.reg, i⟩, s)) ∧
    (4 ≤ i → s.perform n (.writeSpr i w) = some (.error ⟨.reg, i⟩, s) ∧
      s.perform n (.readSpr i) = some (.error ⟨.reg, i⟩, s)) ∧
    (s.cfg.memSize ≤ a.toNat → s.perform n (.writeMem a v) = some (.error ⟨.mem, a.toNat⟩, s) ∧
      s.perform n (.readMem a) = some (.error ⟨.mem, a.toNat⟩, s))

/-- 46_sequencer_and_host.md R220, R221: the dumps change nothing; the memory dump gives the bytes at (start + i) mod 2^16
where all are backed, and an error where one is not, of kind MEM (the model's choice, log 11); the state dump gives every register, both flags and HALT. -/
def Obligations.DumpsOnlyRead : Prop :=
  ∀ (s : State) (bound : Nat) (start : Word) (n : Nat),
    ((∀ i < n, s.backed (rangeAddr start i) = true) →
      ∃ vs, s.perform bound (.dump start n) = some (.bytes vs, s) ∧ vs.length = n ∧
        ∀ i (h : i < vs.length), vs[i] = s.byte (rangeAddr start i)) ∧
    ((∃ i < n, s.cfg.memSize ≤ (rangeAddr start i).toNat) →
      ∃ e, s.perform bound (.dump start n) = some (.error e, s) ∧ e.kind = .mem) ∧
    ∃ d, s.perform bound .dumpState = some (.registers d, s) ∧ d.A = s.gpr .A ∧ d.B = s.gpr .B ∧ d.C = s.gpr .C ∧
      d.D = s.gpr .D ∧ d.L = s.gpr .L ∧ d.H = s.gpr .H ∧ d.PC = s.pc ∧ d.SP = s.sp ∧ d.F = s.f ∧ d.S = s.st ∧
      d.ZERO = d.F.getLsbD 0 ∧ d.CARRY = d.F.getLsbD 1 ∧ d.HALT = d.S.getLsbD 0

/-- 60_exceptions.md R250: while FAULTED = 1, STEP and RUN answer the record and change nothing, every command but RESET
leaves FAULTED and the record as they are, and RESET gives the construction state, from any state, but for the model's own
counter of free values (log 13). That RESET answers OK is the model's choice (log 20). -/
def Obligations.OnlyResetLeavesTheFaultedState : Prop :=
  ∀ (s t : State) (bound : Nat) (c : Command) (r : Reply),
    (s.faulted = true → s.perform bound .step = some (.fault s.record, s) ∧
      s.perform bound .run = some (.fault s.record, s)) ∧
    (s.faulted = true → c ≠ .reset → s.perform bound c = some (r, t) → t.faulted = true ∧ t.record = s.record) ∧
    ∃ u, s.perform bound .reset = some (.ok, u) ∧ u.setDraws 0 = State.resetWith s.cfg
end

