-- ==== Sys2Proof/Laws/Bits.lean ====
section
/-! SUPPORT. Bit and byte facts: one named bit of a word (10_state.md R37), and the two bytes of an address (R56). -/

namespace Sys2Proof

namespace Machine

theorem setBit_getLsbD (w : Word) (n m : Nat) (v : Bool) (hn : n < 16) :
    (setBit w n v).getLsbD m = if m = n then v else w.getLsbD m := by
  have one : ∀ k, (1#16 <<< n).getLsbD k = decide (k = n) := by
    intro k
    rw [show (1#16 <<< n) = BitVec.twoPow 16 n from rfl, BitVec.getLsbD_twoPow]
    simp [hn, eq_comm]
  by_cases h : m = n
  · subst h
    cases v <;> simp [setBit, hn]
  · cases v <;> simp [setBit, one, h]
    intro hw
    exact BitVec.lt_of_getLsbD hw

theorem setBit_same (w : Word) (n : Nat) (v : Bool) (hn : n < 16) : (setBit w n v).getLsbD n = v := by
  simp [setBit_getLsbD w n n v hn]

theorem setBit_other (w : Word) (n m : Nat) (v : Bool) (hn : n < 16) (h : m ≠ n) :
    (setBit w n v).getLsbD m = w.getLsbD m := by
  simp [setBit_getLsbD w n m v hn, h]

end Machine

theorem wordOfBytes_eq_append (lo hi : Byte) : wordOfBytes lo hi = hi ++ lo := by
  apply BitVec.eq_of_getLsbD_eq
  intro i hi'
  simp only [wordOfBytes, BitVec.getLsbD_or, BitVec.getLsbD_setWidth, BitVec.getLsbD_shiftLeft, BitVec.getLsbD_append]
  by_cases h : i < 8
  · simp [h, hi']
  · have : lo.getLsbD i = false := BitVec.getLsbD_of_ge lo i (by omega)
    simp [h, hi', this]
    omega

theorem wordOfBytes_toNat (lo hi : Byte) : (wordOfBytes lo hi).toNat = lo.toNat + 256 * hi.toNat := by
  rw [wordOfBytes_eq_append, BitVec.toNat_append, Nat.shiftLeft_eq, Nat.mul_comm, ← Nat.two_pow_add_eq_or_of_lt lo.isLt]
  omega

@[simp] theorem wordOfBytes_low_high (w : Word) : wordOfBytes (lowByte w) (highByte w) = w := by
  apply BitVec.eq_of_toNat_eq
  have := w.isLt
  simp only [wordOfBytes_toNat, lowByte, highByte, BitVec.extractLsb'_toNat, Nat.shiftRight_eq_div_pow]
  omega

@[simp] theorem regField_setWidth (r : RegIx) : regField (r.setWidth 8) = r := by
  revert r; decide

@[simp] theorem opcodeField_opcodeByte (o : Opcode) (m : Bool) (r : RegIx) :
    opcodeField (opcodeByte o m r) = o.bits := by
  revert m r; cases o <;> decide

@[simp] theorem modeField_opcodeByte (o : Opcode) (m : Bool) (r : RegIx) : modeField (opcodeByte o m r) = m := by
  revert m r; cases o <;> decide

@[simp] theorem regField_opcodeByte (o : Opcode) (m : Bool) (r : RegIx) : regField (opcodeByte o m r) = r := by
  revert m r; cases o <;> decide

@[simp] theorem Opcode.ofBits_bits (o : Opcode) : Opcode.ofBits o.bits = o := by
  cases o <;> decide

end Sys2Proof
end

