-- ==== Sys2Proof/Laws/Memory.lean ====
section
/-! SUPPORT. Memory: read after write, and every operation keeps the canonical form. -/

namespace Sys2Proof.Machine

theorem Memory.read_write_same (m : Memory) (a : Nat) (v : Byte) (h : Memory.wf m) :
    Memory.read (Memory.write m a v) a = v := by
  induction m with
  | nil => by_cases hv : v = Memory.unlisted <;> simp [Memory.write, Memory.read, hv]
  | cons p m ih =>
    obtain ⟨k, w⟩ := p
    obtain ⟨hs, hn⟩ := h
    have later := (List.pairwise_cons.mp hs).1
    have absent : ∀ n, n ≤ k → Memory.read m n = Memory.unlisted := by
      intro n hn'
      clear ih hs hn
      induction m with
      | nil => rfl
      | cons q m ih' =>
        have := later q (by simp)
        simp only [Memory.read]
        rw [if_neg (by simp at this; omega)]
        exact ih' (fun r hr => later r (by simp [hr]))
    have tail : Memory.wf m := ⟨(List.pairwise_cons.mp hs).2, fun q hq => hn q (by simp [hq])⟩
    unfold Memory.write
    split
    · split
      · rename_i hlt hv
        simp only [Memory.read]
        rw [if_neg (by omega), absent a (by omega), hv]
      · simp [Memory.read]
    · split
      · split
        · rename_i heq hv
          rw [absent a (by omega), hv]
        · simp [Memory.read]
      · simp only [Memory.read]
        rw [if_neg (by omega)]
        exact ih tail

theorem Memory.read_write_other (m : Memory) (a b : Nat) (v : Byte) (h : b ≠ a) :
    Memory.read (Memory.write m a v) b = Memory.read m b := by
  induction m with
  | nil =>
    by_cases hv : v = Memory.unlisted <;> simp [Memory.write, Memory.read, hv]
    omega
  | cons p m ih =>
    obtain ⟨k, w⟩ := p
    unfold Memory.write
    split
    · split
      · rfl
      · conv_lhs => unfold Memory.read
        rw [if_neg (by omega)]
    · split
      · rename_i heq
        subst heq
        split
        · simp only [Memory.read]
          rw [if_neg (by omega)]
        · simp only [Memory.read]
          rw [if_neg (by omega), if_neg (by omega)]
      · simp only [Memory.read, ih]

theorem Memory.mem_write {m : Memory} {a : Nat} {v : Byte} {p : Host.Cell} (h : p ∈ Memory.write m a v) :
    p ∈ m ∨ (p = (a, v) ∧ v ≠ Memory.unlisted) := by
  induction m with
  | nil =>
    by_cases hv : v = Memory.unlisted <;> simp_all [Memory.write]
  | cons q m ih =>
    obtain ⟨k, w⟩ := q
    unfold Memory.write at h
    split at h
    · split at h
      · exact .inl h
      · rcases List.mem_cons.mp h with rfl | h
        · exact .inr ⟨rfl, ‹_›⟩
        · exact .inl h
    · split at h
      · split at h
        · exact .inl (List.mem_cons_of_mem _ h)
        · rcases List.mem_cons.mp h with rfl | h
          · exact .inr ⟨rfl, ‹_›⟩
          · exact .inl (List.mem_cons_of_mem _ h)
      · rcases List.mem_cons.mp h with rfl | h
        · exact .inl (by simp)
        · exact (ih h).imp (List.mem_cons_of_mem _) id

theorem Memory.write_wf {m : Memory} (a : Nat) (v : Byte) (h : Memory.wf m) : Memory.wf (Memory.write m a v) := by
  refine ⟨?_, fun p hp => ?_⟩
  · induction m with
    | nil => by_cases hv : v = Memory.unlisted <;> simp [Memory.write, hv]
    | cons q m ih =>
      obtain ⟨k, w⟩ := q
      obtain ⟨hs, hn⟩ := h
      have tail : Memory.wf m := ⟨(List.pairwise_cons.mp hs).2, fun q hq => hn q (by simp [hq])⟩
      have later := (List.pairwise_cons.mp hs).1
      unfold Memory.write
      split
      · split
        · exact hs
        · refine List.pairwise_cons.mpr ⟨fun p hp => ?_, hs⟩
          rcases List.mem_cons.mp hp with rfl | hp
          · assumption
          · have := later p hp
            simp at this ⊢
            omega
      · split
        · split
          · exact tail.1
          · rename_i heq _
            subst heq
            exact List.pairwise_cons.mpr ⟨later, tail.1⟩
        · refine List.pairwise_cons.mpr ⟨fun p hp => ?_, ih tail⟩
          rcases Memory.mem_write hp with hp | ⟨rfl, -⟩
          · exact later p hp
          · simp
            omega
  · rcases Memory.mem_write hp with hp | ⟨rfl, hv⟩
    · exact h.2 p hp
    · exact hv

end Sys2Proof.Machine
end

