-- ==== Sys2Proof/Laws/State.lean ====
section
/-! SUPPORT. One lemma per field or view of State per update, so that no proof unfolds a record update. -/

namespace Sys2Proof.Machine

/-! ### setGpr -/

@[simp] theorem State.setGpr_cfg (s : State) (g : Gpr) (v : Byte) : (s.setGpr g v).cfg = s.cfg := by
  cases g <;> rfl
@[simp] theorem State.setGpr_pc (s : State) (g : Gpr) (v : Byte) : (s.setGpr g v).pc = s.pc := by
  cases g <;> rfl
@[simp] theorem State.setGpr_sp (s : State) (g : Gpr) (v : Byte) : (s.setGpr g v).sp = s.sp := by
  cases g <;> rfl
@[simp] theorem State.setGpr_f (s : State) (g : Gpr) (v : Byte) : (s.setGpr g v).f = s.f := by
  cases g <;> rfl
@[simp] theorem State.setGpr_st (s : State) (g : Gpr) (v : Byte) : (s.setGpr g v).st = s.st := by
  cases g <;> rfl
@[simp] theorem State.setGpr_mem (s : State) (g : Gpr) (v : Byte) : (s.setGpr g v).mem = s.mem := by
  cases g <;> rfl
@[simp] theorem State.setGpr_faulted (s : State) (g : Gpr) (v : Byte) : (s.setGpr g v).faulted = s.faulted := by
  cases g <;> rfl
@[simp] theorem State.setGpr_record (s : State) (g : Gpr) (v : Byte) : (s.setGpr g v).record = s.record := by
  cases g <;> rfl
@[simp] theorem State.setGpr_draws (s : State) (g : Gpr) (v : Byte) : (s.setGpr g v).draws = s.draws := by
  cases g <;> rfl
@[simp] theorem State.setGpr_zero (s : State) (g : Gpr) (v : Byte) : (s.setGpr g v).zero = s.zero := by
  cases g <;> rfl
@[simp] theorem State.setGpr_carry (s : State) (g : Gpr) (v : Byte) : (s.setGpr g v).carry = s.carry := by
  cases g <;> rfl
@[simp] theorem State.setGpr_halt (s : State) (g : Gpr) (v : Byte) : (s.setGpr g v).halt = s.halt := by
  cases g <;> rfl

@[simp] theorem State.setGpr_gpr_same (s : State) (g : Gpr) (v : Byte) : (s.setGpr g v).gpr g = v := by
  cases g <;> rfl

theorem State.setGpr_gpr_other (s : State) {g k : Gpr} (v : Byte) (h : k ≠ g) : (s.setGpr g v).gpr k = s.gpr k := by
  cases g <;> cases k <;> first | rfl | exact absurd rfl h

theorem State.setGpr_gpr (s : State) (g k : Gpr) (v : Byte) :
    (s.setGpr g v).gpr k = if k = g then v else s.gpr k := by
  split
  · subst_vars; simp
  · exact s.setGpr_gpr_other v ‹_›

@[simp] theorem State.setGpr_byte (s : State) (g : Gpr) (v : Byte) (a : Word) : (s.setGpr g v).byte a = s.byte a := by
  cases g <;> rfl

@[simp] theorem State.setGpr_backed (s : State) (g : Gpr) (v : Byte) (a : Word) :
    (s.setGpr g v).backed a = s.backed a := by
  cases g <;> rfl

/-! ### setZero -/

@[simp] theorem State.setZero_cfg (s : State) (v : Bool) : (s.setZero v).cfg = s.cfg := rfl
@[simp] theorem State.setZero_pc (s : State) (v : Bool) : (s.setZero v).pc = s.pc := rfl
@[simp] theorem State.setZero_sp (s : State) (v : Bool) : (s.setZero v).sp = s.sp := rfl
@[simp] theorem State.setZero_st (s : State) (v : Bool) : (s.setZero v).st = s.st := rfl
@[simp] theorem State.setZero_mem (s : State) (v : Bool) : (s.setZero v).mem = s.mem := rfl
@[simp] theorem State.setZero_faulted (s : State) (v : Bool) : (s.setZero v).faulted = s.faulted := rfl
@[simp] theorem State.setZero_record (s : State) (v : Bool) : (s.setZero v).record = s.record := rfl
@[simp] theorem State.setZero_draws (s : State) (v : Bool) : (s.setZero v).draws = s.draws := rfl
@[simp] theorem State.setZero_gpr (s : State) (v : Bool) (g : Gpr) : (s.setZero v).gpr g = s.gpr g := by
  cases g <;> rfl
@[simp] theorem State.setZero_byte (s : State) (v : Bool) (a : Word) : (s.setZero v).byte a = s.byte a := rfl
@[simp] theorem State.setZero_backed (s : State) (v : Bool) (a : Word) : (s.setZero v).backed a = s.backed a := rfl
@[simp] theorem State.setZero_zero (s : State) (v : Bool) : (s.setZero v).zero = v := by
  exact setBit_same _ 0 v (by decide)
@[simp] theorem State.setZero_carry (s : State) (v : Bool) : (s.setZero v).carry = s.carry := by
  exact setBit_other _ 0 _ v (by decide) (by decide)
@[simp] theorem State.setZero_halt (s : State) (v : Bool) : (s.setZero v).halt = s.halt := rfl

theorem State.setZero_f_other (s : State) (v : Bool) {n : Nat} (h : n ≠ 0) :
    (s.setZero v).f.getLsbD n = s.f.getLsbD n :=
  setBit_other _ 0 n v (by decide) h

/-! ### setCarry -/

@[simp] theorem State.setCarry_cfg (s : State) (v : Bool) : (s.setCarry v).cfg = s.cfg := rfl
@[simp] theorem State.setCarry_pc (s : State) (v : Bool) : (s.setCarry v).pc = s.pc := rfl
@[simp] theorem State.setCarry_sp (s : State) (v : Bool) : (s.setCarry v).sp = s.sp := rfl
@[simp] theorem State.setCarry_st (s : State) (v : Bool) : (s.setCarry v).st = s.st := rfl
@[simp] theorem State.setCarry_mem (s : State) (v : Bool) : (s.setCarry v).mem = s.mem := rfl
@[simp] theorem State.setCarry_faulted (s : State) (v : Bool) : (s.setCarry v).faulted = s.faulted := rfl
@[simp] theorem State.setCarry_record (s : State) (v : Bool) : (s.setCarry v).record = s.record := rfl
@[simp] theorem State.setCarry_draws (s : State) (v : Bool) : (s.setCarry v).draws = s.draws := rfl
@[simp] theorem State.setCarry_gpr (s : State) (v : Bool) (g : Gpr) : (s.setCarry v).gpr g = s.gpr g := by
  cases g <;> rfl
@[simp] theorem State.setCarry_byte (s : State) (v : Bool) (a : Word) : (s.setCarry v).byte a = s.byte a := rfl
@[simp] theorem State.setCarry_backed (s : State) (v : Bool) (a : Word) : (s.setCarry v).backed a = s.backed a := rfl
@[simp] theorem State.setCarry_zero (s : State) (v : Bool) : (s.setCarry v).zero = s.zero := by
  exact setBit_other _ 1 _ v (by decide) (by decide)
@[simp] theorem State.setCarry_carry (s : State) (v : Bool) : (s.setCarry v).carry = v := by
  exact setBit_same _ 1 v (by decide)
@[simp] theorem State.setCarry_halt (s : State) (v : Bool) : (s.setCarry v).halt = s.halt := rfl

theorem State.setCarry_f_other (s : State) (v : Bool) {n : Nat} (h : n ≠ 1) :
    (s.setCarry v).f.getLsbD n = s.f.getLsbD n :=
  setBit_other _ 1 n v (by decide) h

/-! ### setHalt -/

@[simp] theorem State.setHalt_cfg (s : State) (v : Bool) : (s.setHalt v).cfg = s.cfg := rfl
@[simp] theorem State.setHalt_pc (s : State) (v : Bool) : (s.setHalt v).pc = s.pc := rfl
@[simp] theorem State.setHalt_sp (s : State) (v : Bool) : (s.setHalt v).sp = s.sp := rfl
@[simp] theorem State.setHalt_f (s : State) (v : Bool) : (s.setHalt v).f = s.f := rfl
@[simp] theorem State.setHalt_mem (s : State) (v : Bool) : (s.setHalt v).mem = s.mem := rfl
@[simp] theorem State.setHalt_faulted (s : State) (v : Bool) : (s.setHalt v).faulted = s.faulted := rfl
@[simp] theorem State.setHalt_record (s : State) (v : Bool) : (s.setHalt v).record = s.record := rfl
@[simp] theorem State.setHalt_draws (s : State) (v : Bool) : (s.setHalt v).draws = s.draws := rfl
@[simp] theorem State.setHalt_gpr (s : State) (v : Bool) (g : Gpr) : (s.setHalt v).gpr g = s.gpr g := by
  cases g <;> rfl
@[simp] theorem State.setHalt_byte (s : State) (v : Bool) (a : Word) : (s.setHalt v).byte a = s.byte a := rfl
@[simp] theorem State.setHalt_backed (s : State) (v : Bool) (a : Word) : (s.setHalt v).backed a = s.backed a := rfl
@[simp] theorem State.setHalt_zero (s : State) (v : Bool) : (s.setHalt v).zero = s.zero := rfl
@[simp] theorem State.setHalt_carry (s : State) (v : Bool) : (s.setHalt v).carry = s.carry := rfl
@[simp] theorem State.setHalt_halt (s : State) (v : Bool) : (s.setHalt v).halt = v := by
  exact setBit_same _ 0 v (by decide)

theorem State.setHalt_st_other (s : State) (v : Bool) {n : Nat} (h : n ≠ 0) :
    (s.setHalt v).st.getLsbD n = s.st.getLsbD n :=
  setBit_other _ 0 n v (by decide) h

/-! ### setByte -/

@[simp] theorem State.setByte_cfg (s : State) (a : Word) (v : Byte) : (s.setByte a v).cfg = s.cfg := rfl
@[simp] theorem State.setByte_pc (s : State) (a : Word) (v : Byte) : (s.setByte a v).pc = s.pc := rfl
@[simp] theorem State.setByte_sp (s : State) (a : Word) (v : Byte) : (s.setByte a v).sp = s.sp := rfl
@[simp] theorem State.setByte_f (s : State) (a : Word) (v : Byte) : (s.setByte a v).f = s.f := rfl
@[simp] theorem State.setByte_st (s : State) (a : Word) (v : Byte) : (s.setByte a v).st = s.st := rfl
@[simp] theorem State.setByte_faulted (s : State) (a : Word) (v : Byte) : (s.setByte a v).faulted = s.faulted := rfl
@[simp] theorem State.setByte_record (s : State) (a : Word) (v : Byte) : (s.setByte a v).record = s.record := rfl
@[simp] theorem State.setByte_draws (s : State) (a : Word) (v : Byte) : (s.setByte a v).draws = s.draws := rfl
@[simp] theorem State.setByte_zero (s : State) (a : Word) (v : Byte) : (s.setByte a v).zero = s.zero := rfl
@[simp] theorem State.setByte_carry (s : State) (a : Word) (v : Byte) : (s.setByte a v).carry = s.carry := rfl
@[simp] theorem State.setByte_halt (s : State) (a : Word) (v : Byte) : (s.setByte a v).halt = s.halt := rfl
@[simp] theorem State.setByte_gpr (s : State) (a : Word) (v : Byte) (g : Gpr) : (s.setByte a v).gpr g = s.gpr g := by
  cases g <;> rfl
@[simp] theorem State.setByte_backed (s : State) (a b : Word) (v : Byte) : (s.setByte a v).backed b = s.backed b := rfl

theorem State.setByte_byte_same (s : State) (a : Word) (v : Byte) (h : Memory.wf s.mem) : (s.setByte a v).byte a = v :=
  Memory.read_write_same s.mem a.toNat v h

theorem State.setByte_byte_other (s : State) {a b : Word} (v : Byte) (h : b ≠ a) : (s.setByte a v).byte b = s.byte b :=
  Memory.read_write_other s.mem a.toNat b.toNat v (fun e => h (BitVec.eq_of_toNat_eq e))

/-! ### setPc, setSp, setDraws, setLatch -/

@[simp] theorem State.setPc_cfg (s : State) (x : Word) : (s.setPc x).cfg = s.cfg := rfl
@[simp] theorem State.setPc_pc (s : State) (x : Word) : (s.setPc x).pc = x := rfl
@[simp] theorem State.setPc_sp (s : State) (x : Word) : (s.setPc x).sp = s.sp := rfl
@[simp] theorem State.setPc_f (s : State) (x : Word) : (s.setPc x).f = s.f := rfl
@[simp] theorem State.setPc_st (s : State) (x : Word) : (s.setPc x).st = s.st := rfl
@[simp] theorem State.setPc_mem (s : State) (x : Word) : (s.setPc x).mem = s.mem := rfl
@[simp] theorem State.setPc_faulted (s : State) (x : Word) : (s.setPc x).faulted = s.faulted := rfl
@[simp] theorem State.setPc_record (s : State) (x : Word) : (s.setPc x).record = s.record := rfl
@[simp] theorem State.setPc_draws (s : State) (x : Word) : (s.setPc x).draws = s.draws := rfl
@[simp] theorem State.setPc_zero (s : State) (x : Word) : (s.setPc x).zero = s.zero := rfl
@[simp] theorem State.setPc_carry (s : State) (x : Word) : (s.setPc x).carry = s.carry := rfl
@[simp] theorem State.setPc_halt (s : State) (x : Word) : (s.setPc x).halt = s.halt := rfl
@[simp] theorem State.setPc_hl (s : State) (x : Word) : (s.setPc x).hl = s.hl := rfl
@[simp] theorem State.setPc_byte (s : State) (x : Word) (k : Word) : (s.setPc x).byte k = s.byte k := rfl
@[simp] theorem State.setPc_backed (s : State) (x : Word) (k : Word) : (s.setPc x).backed k = s.backed k := rfl
@[simp] theorem State.setPc_gpr (s : State) (x : Word) (g : Gpr) : (s.setPc x).gpr g = s.gpr g := by cases g <;> rfl

@[simp] theorem State.setSp_cfg (s : State) (x : Word) : (s.setSp x).cfg = s.cfg := rfl
@[simp] theorem State.setSp_pc (s : State) (x : Word) : (s.setSp x).pc = s.pc := rfl
@[simp] theorem State.setSp_sp (s : State) (x : Word) : (s.setSp x).sp = x := rfl
@[simp] theorem State.setSp_f (s : State) (x : Word) : (s.setSp x).f = s.f := rfl
@[simp] theorem State.setSp_st (s : State) (x : Word) : (s.setSp x).st = s.st := rfl
@[simp] theorem State.setSp_mem (s : State) (x : Word) : (s.setSp x).mem = s.mem := rfl
@[simp] theorem State.setSp_faulted (s : State) (x : Word) : (s.setSp x).faulted = s.faulted := rfl
@[simp] theorem State.setSp_record (s : State) (x : Word) : (s.setSp x).record = s.record := rfl
@[simp] theorem State.setSp_draws (s : State) (x : Word) : (s.setSp x).draws = s.draws := rfl
@[simp] theorem State.setSp_zero (s : State) (x : Word) : (s.setSp x).zero = s.zero := rfl
@[simp] theorem State.setSp_carry (s : State) (x : Word) : (s.setSp x).carry = s.carry := rfl
@[simp] theorem State.setSp_halt (s : State) (x : Word) : (s.setSp x).halt = s.halt := rfl
@[simp] theorem State.setSp_hl (s : State) (x : Word) : (s.setSp x).hl = s.hl := rfl
@[simp] theorem State.setSp_byte (s : State) (x : Word) (k : Word) : (s.setSp x).byte k = s.byte k := rfl
@[simp] theorem State.setSp_backed (s : State) (x : Word) (k : Word) : (s.setSp x).backed k = s.backed k := rfl
@[simp] theorem State.setSp_gpr (s : State) (x : Word) (g : Gpr) : (s.setSp x).gpr g = s.gpr g := by cases g <;> rfl

@[simp] theorem State.setDraws_cfg (s : State) (x : Nat) : (s.setDraws x).cfg = s.cfg := rfl
@[simp] theorem State.setDraws_pc (s : State) (x : Nat) : (s.setDraws x).pc = s.pc := rfl
@[simp] theorem State.setDraws_sp (s : State) (x : Nat) : (s.setDraws x).sp = s.sp := rfl
@[simp] theorem State.setDraws_f (s : State) (x : Nat) : (s.setDraws x).f = s.f := rfl
@[simp] theorem State.setDraws_st (s : State) (x : Nat) : (s.setDraws x).st = s.st := rfl
@[simp] theorem State.setDraws_mem (s : State) (x : Nat) : (s.setDraws x).mem = s.mem := rfl
@[simp] theorem State.setDraws_faulted (s : State) (x : Nat) : (s.setDraws x).faulted = s.faulted := rfl
@[simp] theorem State.setDraws_record (s : State) (x : Nat) : (s.setDraws x).record = s.record := rfl
@[simp] theorem State.setDraws_draws (s : State) (x : Nat) : (s.setDraws x).draws = x := rfl
@[simp] theorem State.setDraws_zero (s : State) (x : Nat) : (s.setDraws x).zero = s.zero := rfl
@[simp] theorem State.setDraws_carry (s : State) (x : Nat) : (s.setDraws x).carry = s.carry := rfl
@[simp] theorem State.setDraws_halt (s : State) (x : Nat) : (s.setDraws x).halt = s.halt := rfl
@[simp] theorem State.setDraws_hl (s : State) (x : Nat) : (s.setDraws x).hl = s.hl := rfl
@[simp] theorem State.setDraws_byte (s : State) (x : Nat) (k : Word) : (s.setDraws x).byte k = s.byte k := rfl
@[simp] theorem State.setDraws_backed (s : State) (x : Nat) (k : Word) : (s.setDraws x).backed k = s.backed k := rfl
@[simp] theorem State.setDraws_gpr (s : State) (x : Nat) (g : Gpr) : (s.setDraws x).gpr g = s.gpr g := by cases g <;> rfl

@[simp] theorem State.setLatch_cfg (s : State) (x : Bool) (r : FaultRecord) : (s.setLatch x r).cfg = s.cfg := rfl
@[simp] theorem State.setLatch_pc (s : State) (x : Bool) (r : FaultRecord) : (s.setLatch x r).pc = s.pc := rfl
@[simp] theorem State.setLatch_sp (s : State) (x : Bool) (r : FaultRecord) : (s.setLatch x r).sp = s.sp := rfl
@[simp] theorem State.setLatch_f (s : State) (x : Bool) (r : FaultRecord) : (s.setLatch x r).f = s.f := rfl
@[simp] theorem State.setLatch_st (s : State) (x : Bool) (r : FaultRecord) : (s.setLatch x r).st = s.st := rfl
@[simp] theorem State.setLatch_mem (s : State) (x : Bool) (r : FaultRecord) : (s.setLatch x r).mem = s.mem := rfl
@[simp] theorem State.setLatch_faulted (s : State) (x : Bool) (r : FaultRecord) : (s.setLatch x r).faulted = x := rfl
@[simp] theorem State.setLatch_record (s : State) (x : Bool) (r : FaultRecord) : (s.setLatch x r).record = r := rfl
@[simp] theorem State.setLatch_draws (s : State) (x : Bool) (r : FaultRecord) : (s.setLatch x r).draws = s.draws := rfl
@[simp] theorem State.setLatch_zero (s : State) (x : Bool) (r : FaultRecord) : (s.setLatch x r).zero = s.zero := rfl
@[simp] theorem State.setLatch_carry (s : State) (x : Bool) (r : FaultRecord) : (s.setLatch x r).carry = s.carry := rfl
@[simp] theorem State.setLatch_halt (s : State) (x : Bool) (r : FaultRecord) : (s.setLatch x r).halt = s.halt := rfl
@[simp] theorem State.setLatch_hl (s : State) (x : Bool) (r : FaultRecord) : (s.setLatch x r).hl = s.hl := rfl
@[simp] theorem State.setLatch_byte (s : State) (x : Bool) (r : FaultRecord) (k : Word) : (s.setLatch x r).byte k = s.byte k := rfl
@[simp] theorem State.setLatch_backed (s : State) (x : Bool) (r : FaultRecord) (k : Word) : (s.setLatch x r).backed k = s.backed k := rfl
@[simp] theorem State.setLatch_gpr (s : State) (x : Bool) (r : FaultRecord) (g : Gpr) : (s.setLatch x r).gpr g = s.gpr g := by cases g <;> rfl

@[simp] theorem State.setPc_setPc (s : State) (x y : Word) : (s.setPc x).setPc y = s.setPc y := rfl
@[simp] theorem State.setPc_pc_self (s : State) : s.setPc s.pc = s := rfl

end Sys2Proof.Machine
end

