-- ==== Sys2Proof/Laws/Ops.lean ====
section
/-! SUPPORT. What each shared operation can do, said once: register and memory access, the advances of PC and SP, and taking
the fault. -/

namespace Sys2Proof.Machine

/-! ### Register indices -/

@[simp] theorem Gpr.ofIndex_index (g : Gpr) : Gpr.ofIndex g.index = some g := by cases g <;> decide

theorem Gpr.index_inj {g k : Gpr} (h : g.index = k.index) : g = k := by
  have := congrArg Gpr.ofIndex h
  simpa using this

theorem Gpr.ofIndex_eq_some {r : RegIx} {g : Gpr} : Gpr.ofIndex r = some g ↔ r = g.index := by
  revert r; cases g <;> decide

theorem Gpr.ofIndex_eq_none {r : RegIx} : Gpr.ofIndex r = none ↔ 6 ≤ r.toNat := by
  revert r; decide

/-- A field below 6 is the index of a register. -/
theorem exists_index {r : RegIx} (h : r.toNat < 6) : ∃ g : Gpr, r = g.index := by
  cases hg : Gpr.ofIndex r with
  | some g => exact ⟨g, Gpr.ofIndex_eq_some.mp hg⟩
  | none => exact absurd (Gpr.ofIndex_eq_none.mp hg) (by omega)

/-- Every field is the index of a register, or 6 or 7. -/
theorem index_or_missing (r : RegIx) : (∃ g : Gpr, r = g.index) ∨ 6 ≤ r.toNat := by
  by_cases h : r.toNat < 6
  · exact .inl (exists_index h)
  · exact .inr (by omega)

@[simp] theorem Gpr.index_lt (g : Gpr) : g.index.toNat < 6 := by cases g <;> decide

@[simp] theorem Gpr.index_named (g : Gpr) : RegIx.named g.index = true := by cases g <;> decide

@[simp] theorem State.readReg_index (s : State) (g : Gpr) : s.readReg g.index = .ok (s.gpr g) := by
  simp [State.readReg]

@[simp] theorem State.writeReg_index (s : State) (g : Gpr) (v : Byte) : s.writeReg g.index v = .ok (s.setGpr g v) := by
  simp [State.writeReg]

theorem State.readReg_missing (s : State) {r : RegIx} (h : 6 ≤ r.toNat) : s.readReg r = .error (oobReg r) := by
  simp [State.readReg, Gpr.ofIndex_eq_none.mpr h]

theorem State.writeReg_missing (s : State) {r : RegIx} (v : Byte) (h : 6 ≤ r.toNat) :
    s.writeReg r v = .error (oobReg r) := by
  simp [State.writeReg, Gpr.ofIndex_eq_none.mpr h]

theorem State.readReg_ok {s : State} {r : RegIx} {v : Byte} (h : s.readReg r = .ok v) :
    ∃ g : Gpr, r = g.index ∧ v = s.gpr g := by
  rcases index_or_missing r with ⟨g, rfl⟩ | hr
  · exact ⟨g, rfl, by simpa using h.symm⟩
  · simp [s.readReg_missing hr] at h

theorem State.writeReg_ok {s t : State} {r : RegIx} {v : Byte} (h : s.writeReg r v = .ok t) :
    ∃ g : Gpr, r = g.index ∧ t = s.setGpr g v := by
  rcases index_or_missing r with ⟨g, rfl⟩ | hr
  · exact ⟨g, rfl, by simpa using h.symm⟩
  · simp [s.writeReg_missing v hr] at h

/-! ### Memory access -/

theorem State.memRead_backed {s : State} {a : Word} (h : s.backed a = true) : s.memRead a = .ok (s.byte a) := by
  simp [State.memRead, h]

theorem State.memRead_unbacked {s : State} {a : Word} (h : s.backed a = false) : s.memRead a = .error (oobMem a) := by
  simp [State.memRead, h]

theorem State.memWrite_backed {s : State} {a : Word} (v : Byte) (h : s.backed a = true) :
    s.memWrite a v = .ok (s.setByte a v) := by
  simp [State.memWrite, h]

theorem State.memWrite_unbacked {s : State} {a : Word} (v : Byte) (h : s.backed a = false) :
    s.memWrite a v = .error (oobMem a) := by
  simp [State.memWrite, h]

theorem State.memRead_ok {s : State} {a : Word} {v : Byte} (h : s.memRead a = .ok v) :
    s.backed a = true ∧ v = s.byte a := by
  unfold State.memRead at h
  split at h
  · exact ⟨‹_›, by simpa using h.symm⟩
  · cases h

theorem State.memWrite_ok {s t : State} {a : Word} {v : Byte} (h : s.memWrite a v = .ok t) :
    s.backed a = true ∧ t = s.setByte a v := by
  unfold State.memWrite at h
  split at h
  · exact ⟨‹_›, by simpa using h.symm⟩
  · cases h

/-! ### Advances -/

theorem Config.increment_ok {c : Config} {w : Word} (h : c.overflow = .wrap ∨ w ≠ 0xFFFF#16) :
    Config.increment c w = .ok (w + 1#16) := by
  unfold Config.increment
  rw [if_neg]
  rintro ⟨hf, rfl⟩
  rcases h with h | h
  · simp [h] at hf
  · exact h rfl

theorem Config.decrement_ok {c : Config} {w : Word} (h : c.overflow = .wrap ∨ w ≠ 0#16) :
    Config.decrement c w = .ok (w - 1#16) := by
  unfold Config.decrement
  rw [if_neg]
  rintro ⟨hf, rfl⟩
  rcases h with h | h
  · simp [h] at hf
  · exact h rfl

theorem Config.increment_cases (c : Config) (w : Word) :
    Config.increment c w = .ok (w + 1#16) ∨
      c.overflow = .fault ∧ w = 0xFFFF#16 ∧ Config.increment c w = .error ⟨.mem, 0x10000⟩ := by
  unfold Config.increment
  split
  · exact .inr ⟨‹_ ∧ _›.1, ‹_ ∧ _›.2, rfl⟩
  · exact .inl rfl

theorem Config.decrement_cases (c : Config) (w : Word) :
    Config.decrement c w = .ok (w - 1#16) ∨
      c.overflow = .fault ∧ w = 0#16 ∧ Config.decrement c w = .error ⟨.mem, -1⟩ := by
  unfold Config.decrement
  split
  · exact .inr ⟨‹_ ∧ _›.1, ‹_ ∧ _›.2, rfl⟩
  · exact .inl rfl

/-! ### What a fault leaves -/

theorem State.leaveUnspecified_cfg (s : State) (loc : Loc) : (s.leaveUnspecified loc).cfg = s.cfg := by
  cases loc <;> simp only [State.leaveUnspecified] <;> (try split) <;> simp

theorem State.leaveUnspecified_same (s : State) {loc loc' : Loc} (h : loc' ≠ loc) :
    Loc.Same s (s.leaveUnspecified loc) loc' := by
  cases loc with
  | gpr r =>
    simp only [State.leaveUnspecified]
    split
    · rename_i g hg
      have hr := Gpr.ofIndex_eq_some.mp hg
      cases loc' <;> simp [Loc.Same]
      rename_i r'
      rintro k rfl
      have : k ≠ g := by
        rintro rfl
        exact h (by rw [hr])
      rw [State.setGpr_gpr_other _ _ this, State.setDraws_gpr]
    · cases loc' <;> simp [Loc.Same]
  | mem a =>
    simp only [State.leaveUnspecified]
    split
    · cases loc' <;> simp [Loc.Same]
      rename_i b
      rw [State.setByte_byte_other _ _ (by rintro rfl; exact h rfl), State.setDraws_byte]
    · cases loc' <;> simp [Loc.Same]
  | pc => cases loc' <;> first | exact absurd rfl h | (intro g _; cases g <;> rfl) | rfl
  | sp => cases loc' <;> first | exact absurd rfl h | (intro g _; cases g <;> rfl) | rfl
  | zero => cases loc' <;> first | exact absurd rfl h | simp [State.leaveUnspecified, Loc.Same]
  | carry => cases loc' <;> first | exact absurd rfl h | simp [State.leaveUnspecified, Loc.Same]
  | halt => cases loc' <;> first | exact absurd rfl h | simp [State.leaveUnspecified, Loc.Same]

theorem Loc.Same.refl (s : State) (loc : Loc) : Loc.Same s s loc := by
  cases loc <;> simp [Loc.Same]

theorem Loc.Same.trans {s t u : State} {loc : Loc} (h : Loc.Same s t loc) (h' : Loc.Same t u loc) : Loc.Same s u loc := by
  cases loc with
  | gpr r => exact fun g hg => (h' g hg).trans (h g hg)
  | _ => exact Eq.trans h' h

theorem State.SameStorage.refl (s : State) : s.SameStorage s := ⟨rfl, fun _ _ => rfl, fun _ _ => rfl⟩

theorem State.SameStorage.trans {s t u : State} (h : s.SameStorage t) (h' : t.SameStorage u) : s.SameStorage u :=
  ⟨h'.cfg.trans h.cfg, fun n hn => (h'.flags n hn).trans (h.flags n hn),
    fun n hn => (h'.status n hn).trans (h.status n hn)⟩

theorem State.leaveUnspecified_storage (s : State) (loc : Loc) : s.SameStorage (s.leaveUnspecified loc) := by
  refine ⟨s.leaveUnspecified_cfg loc, fun n hn => ?_, fun n hn => ?_⟩
  · cases loc with
    | zero => exact State.setZero_f_other _ _ (by omega)
    | carry => exact State.setCarry_f_other _ _ (by omega)
    | _ => (simp only [State.leaveUnspecified]; try split) <;> simp
  · cases loc with
    | halt => exact State.setHalt_st_other _ _ (by omega)
    | _ => (simp only [State.leaveUnspecified]; try split) <;> simp

/-- A fold of free draws leaves every other location, and the storage no rule writes. -/
theorem State.foldl_leaveUnspecified (locs : List Loc) (s : State) :
    s.SameStorage (locs.foldl State.leaveUnspecified s) ∧
      ∀ loc, loc ∉ locs → Loc.Same s (locs.foldl State.leaveUnspecified s) loc := by
  induction locs generalizing s with
  | nil => exact ⟨.refl s, fun loc _ => .refl s loc⟩
  | cons l ls ih =>
    refine ⟨(s.leaveUnspecified_storage l).trans (ih _).1, fun loc h => ?_⟩
    simp only [List.mem_cons, not_or] at h
    exact (s.leaveUnspecified_same h.1).trans ((ih _).2 loc h.2)

@[simp] theorem State.takeFault_faulted (s : State) (locs : List Loc) (e : OutOfBounds) (p : Word) :
    (s.takeFault locs e p).faulted = true := rfl

@[simp] theorem State.takeFault_record (s : State) (locs : List Loc) (e : OutOfBounds) (p : Word) :
    (s.takeFault locs e p).record = ⟨e.kind.cause, e.info, p⟩ := rfl

theorem State.takeFault_same (s : State) (locs : List Loc) (e : OutOfBounds) (p : Word) {loc : Loc} (h : loc ∉ locs) :
    Loc.Same s (s.takeFault locs e p) loc := by
  have := (State.foldl_leaveUnspecified locs s).2 loc h
  cases loc with
  | gpr r =>
    intro g hg
    rw [State.takeFault, State.setLatch_gpr]
    exact this g hg
  | _ => exact this

theorem State.takeFault_storage (s : State) (locs : List Loc) (e : OutOfBounds) (p : Word) :
    s.SameStorage (s.takeFault locs e p) :=
  ⟨(State.foldl_leaveUnspecified locs s).1.cfg, (State.foldl_leaveUnspecified locs s).1.flags,
    (State.foldl_leaveUnspecified locs s).1.status⟩

theorem State.leaveUnspecified_memory {s : State} (loc : Loc) (h : Memory.wf s.mem)
    (hb : ∀ p ∈ s.mem, p.1 < s.cfg.memSize) :
    Memory.wf (s.leaveUnspecified loc).mem ∧ ∀ p ∈ (s.leaveUnspecified loc).mem, p.1 < s.cfg.memSize := by
  cases loc with
  | mem a =>
    simp only [State.leaveUnspecified]
    split
    · rename_i ha
      refine ⟨Memory.write_wf _ _ h, fun p hp => ?_⟩
      rcases Memory.mem_write hp with hp | ⟨rfl, -⟩
      · exact hb p hp
      · simpa [State.backed] using ha
    · exact ⟨h, hb⟩
  | gpr r =>
    simp only [State.leaveUnspecified]
    split
    · rw [State.setGpr_mem]
      exact ⟨h, hb⟩
    · exact ⟨h, hb⟩
  | _ => exact ⟨h, hb⟩

/-- Taking a fault keeps memory in its form and within the backed addresses. -/
theorem State.takeFault_memory {s : State} (locs : List Loc) (e : OutOfBounds) (p : Word) (h : Memory.wf s.mem)
    (hb : ∀ p ∈ s.mem, p.1 < s.cfg.memSize) :
    Memory.wf (s.takeFault locs e p).mem ∧ ∀ q ∈ (s.takeFault locs e p).mem, q.1 < s.cfg.memSize := by
  show Memory.wf (locs.foldl State.leaveUnspecified s).mem ∧
    ∀ q ∈ (locs.foldl State.leaveUnspecified s).mem, q.1 < s.cfg.memSize
  induction locs generalizing s with
  | nil => exact ⟨h, hb⟩
  | cons l ls ih =>
    have := s.leaveUnspecified_memory l h hb
    have := ih this.1 (by rw [s.leaveUnspecified_cfg]; exact this.2)
    rwa [s.leaveUnspecified_cfg] at this

/-! ### The end of an instruction -/

@[simp] theorem conclude_ok (i : Instr) (s t : State) : conclude i s (.ok t) = .next t := rfl

theorem conclude_error (i : Instr) (s : State) (e : OutOfBounds) :
    conclude i s (.error e) =
      .next (s.takeFault ((Instr.writes i s).filter Loc.notMemory) e (s.pc - BitVec.ofNat 16 i.length)) := rfl

/-- An instruction's end is its effect, or the fault state of what its effect raised. -/
theorem conclude_next {i : Instr} {s t : State} {effect : Except OutOfBounds State} (h : conclude i s effect = .next t) :
    effect = .ok t ∨ ∃ e, effect = .error e ∧
      t = s.takeFault ((Instr.writes i s).filter Loc.notMemory) e (s.pc - BitVec.ofNat 16 i.length) := by
  cases effect with
  | ok u => exact .inl (by simpa using h)
  | error e => exact .inr ⟨e, rfl, by simpa [conclude_error] using h.symm⟩

end Sys2Proof.Machine
end

