-- ==== Sys2Proof/Laws/Exec.lean ====
section
/-! SUPPORT. What an instruction's effect can be: one inversion lemma per shared operation, for its success and for the fault
it raises, and from them the frame of every instruction. -/

namespace Sys2Proof.Machine

theorem bind_ok {α β : Type} {x : Except OutOfBounds α} {k : α → Except OutOfBounds β} {b : β} (h : (x >>= k) = .ok b) :
    ∃ a, x = .ok a ∧ k a = .ok b := by
  cases x with
  | ok a => exact ⟨a, rfl, h⟩
  | error e => cases h

theorem bind_error {α β : Type} {x : Except OutOfBounds α} {k : α → Except OutOfBounds β} {e : OutOfBounds}
    (h : (x >>= k) = .error e) : x = .error e ∨ ∃ a, x = .ok a ∧ k a = .error e := by
  cases x with
  | ok a => exact .inr ⟨a, rfl, h⟩
  | error e' => exact .inl (by cases h; rfl)

@[simp] theorem ok_bind {α β : Type} (a : α) (k : α → Except OutOfBounds β) : (Except.ok a >>= k) = k a := rfl

@[simp] theorem error_bind {α β : Type} (e : OutOfBounds) (k : α → Except OutOfBounds β) :
    ((Except.error e : Except OutOfBounds α) >>= k) = .error e := rfl

@[simp] theorem State.ea_abs (s : State) (a : Word) : s.ea (.abs a) = a := rfl

@[simp] theorem State.ea_hl (s : State) : s.ea .hl = s.hl := rfl

/-- An error of kind REG that names the field `r`, which is 6 or 7. -/
def MissingRegister (r : RegIx) (e : OutOfBounds) : Prop := 6 ≤ r.toNat ∧ e = oobReg r

/-- An error of kind MEM that R241 allows. -/
def MissingMemory (cfg : Config) (e : OutOfBounds) : Prop :=
  (∃ a : Word, cfg.memSize ≤ a.toNat ∧ e = oobMem a) ∨
    (cfg.overflow = .fault ∧ (e = ⟨.mem, -1⟩ ∨ e = ⟨.mem, 0x10000⟩))

theorem State.readReg_error {s : State} {r : RegIx} {e : OutOfBounds} (h : s.readReg r = .error e) :
    MissingRegister r e := by
  rcases index_or_missing r with ⟨g, rfl⟩ | hr
  · simp at h
  · exact ⟨hr, by simpa [s.readReg_missing hr] using h.symm⟩

theorem State.writeReg_error {s : State} {r : RegIx} {v : Byte} {e : OutOfBounds} (h : s.writeReg r v = .error e) :
    MissingRegister r e := by
  rcases index_or_missing r with ⟨g, rfl⟩ | hr
  · simp at h
  · exact ⟨hr, by simpa [s.writeReg_missing v hr] using h.symm⟩

theorem State.memRead_error {s : State} {a : Word} {e : OutOfBounds} (h : s.memRead a = .error e) :
    s.cfg.memSize ≤ a.toNat ∧ e = oobMem a := by
  unfold State.memRead at h
  split at h
  · cases h
  · rename_i hb
    exact ⟨by simpa [State.backed] using hb, by simpa using h.symm⟩

theorem State.memWrite_error {s : State} {a : Word} {v : Byte} {e : OutOfBounds} (h : s.memWrite a v = .error e) :
    s.cfg.memSize ≤ a.toNat ∧ e = oobMem a := by
  unfold State.memWrite at h
  split at h
  · cases h
  · rename_i hb
    exact ⟨by simpa [State.backed] using hb, by simpa using h.symm⟩

/-! ### Success -/

theorem State.mov_ok {s t : State} {r : RegIx} {src : Source} (h : s.mov r src = .ok t) :
    ∃ (g : Gpr) (v : Byte), r = g.index ∧ s.operand src = .ok v ∧ t = s.setGpr g v := by
  obtain ⟨v, hv, h⟩ := bind_ok h
  obtain ⟨g, rfl, rfl⟩ := State.writeReg_ok h
  exact ⟨g, v, rfl, hv, rfl⟩

theorem State.ldr_ok {s t : State} {r : RegIx} {addr : Address} (h : s.ldr r addr = .ok t) :
    ∃ g : Gpr, r = g.index ∧ s.backed (s.ea addr) = true ∧ t = s.setGpr g (s.byte (s.ea addr)) := by
  obtain ⟨v, hv, h⟩ := bind_ok h
  obtain ⟨hb, rfl⟩ := State.memRead_ok hv
  obtain ⟨g, rfl, rfl⟩ := State.writeReg_ok h
  exact ⟨g, rfl, hb, rfl⟩

theorem State.str_ok {s t : State} {r : RegIx} {addr : Address} (h : s.str r addr = .ok t) :
    ∃ g : Gpr, r = g.index ∧ s.backed (s.ea addr) = true ∧ t = s.setByte (s.ea addr) (s.gpr g) := by
  obtain ⟨v, hv, h⟩ := bind_ok h
  obtain ⟨g, rfl, rfl⟩ := State.readReg_ok hv
  obtain ⟨hb, rfl⟩ := State.memWrite_ok h
  exact ⟨g, rfl, hb, rfl⟩

theorem State.push_ok {s t : State} {src : Source} (h : s.push src = .ok t) :
    ∃ v, s.operand src = .ok v ∧ Config.decrement s.cfg s.sp = .ok (s.sp - 1#16) ∧ s.backed (s.sp - 1#16) = true ∧
      t = (s.setSp (s.sp - 1#16)).setByte (s.sp - 1#16) v := by
  obtain ⟨v, hv, h⟩ := bind_ok h
  obtain ⟨sp, hsp, h⟩ := bind_ok h
  obtain ⟨hb, rfl⟩ := State.memWrite_ok h
  rcases Config.decrement_cases s.cfg s.sp with hd | ⟨-, -, hd⟩
  · rw [hd] at hsp
    cases hsp
    exact ⟨v, hv, hd, hb, rfl⟩
  · rw [hd] at hsp
    cases hsp

theorem execPop_eq (r : RegIx) (s : State) : execPop r s = conclude (.pop r) s (do
    let v ← s.memRead s.sp
    let t ← s.writeReg r v
    let sp ← Config.increment s.cfg t.sp
    .ok (t.setSp sp)) := rfl

theorem pop_ok {s t : State} {r : RegIx} (h : (do
    let v ← s.memRead s.sp
    let t ← s.writeReg r v
    let sp ← Config.increment s.cfg t.sp
    Except.ok (t.setSp sp)) = .ok t) :
    ∃ g : Gpr, r = g.index ∧ s.backed s.sp = true ∧ t = (s.setGpr g (s.byte s.sp)).setSp (s.sp + 1#16) := by
  obtain ⟨v, hv, h⟩ := bind_ok h
  obtain ⟨hb, rfl⟩ := State.memRead_ok hv
  obtain ⟨u, hu, h⟩ := bind_ok h
  obtain ⟨g, rfl, rfl⟩ := State.writeReg_ok hu
  obtain ⟨sp, hsp, h⟩ := bind_ok h
  rw [State.setGpr_sp] at hsp
  rcases Config.increment_cases s.cfg s.sp with hd | ⟨-, -, hd⟩
  · rw [hd] at hsp
    cases hsp
    cases h
    exact ⟨g, rfl, hb, rfl⟩
  · rw [hd] at hsp
    cases hsp

theorem State.addWith_ok {s t : State} {r : RegIx} {src : Source} {c : Bool} (h : s.addWith r src c = .ok t) :
    ∃ (g : Gpr) (v : Byte), r = g.index ∧ s.operand src = .ok v ∧
      t = (s.setGpr g (BitVec.ofNat 8 (exactSum (s.gpr g) v c))).setCarry (sumCarry (exactSum (s.gpr g) v c)) := by
  obtain ⟨v, hv, h⟩ := bind_ok h
  obtain ⟨d, hd, h⟩ := bind_ok h
  obtain ⟨g, rfl, rfl⟩ := State.readReg_ok hd
  simp only [State.writeReg_index, ok_bind] at h
  cases h
  exact ⟨g, v, rfl, hv, rfl⟩

theorem State.compare_ok {s t : State} {r : RegIx} {src : Source} (h : s.compare r src = .ok t) :
    ∃ (g : Gpr) (v : Byte), r = g.index ∧ s.operand src = .ok v ∧
      t = s.setZero (differenceZero (difference (s.gpr g) v)) := by
  obtain ⟨v, hv, h⟩ := bind_ok h
  obtain ⟨d, hd, h⟩ := bind_ok h
  obtain ⟨g, rfl, rfl⟩ := State.readReg_ok hd
  cases h
  exact ⟨g, v, rfl, hv, rfl⟩

theorem State.combine_ok {s t : State} {r : RegIx} {src : Source} {op : Byte → Byte → Byte}
    (h : s.combine r src op = .ok t) :
    ∃ (g : Gpr) (v : Byte), r = g.index ∧ s.operand src = .ok v ∧ t = s.setGpr g (op (s.gpr g) v) := by
  obtain ⟨v, hv, h⟩ := bind_ok h
  obtain ⟨d, hd, h⟩ := bind_ok h
  obtain ⟨g, rfl, rfl⟩ := State.readReg_ok hd
  simp only [State.writeReg_index] at h
  cases h
  exact ⟨g, v, rfl, hv, rfl⟩

/-! ### The effect of an instruction -/

/-- The effect that an instruction's meaning concludes with. -/
def effect (i : Instr) (s : State) : Except OutOfBounds State :=
  match i with
  | .nop => .ok s
  | .movImm r imm => s.mov r (.imm imm)
  | .movReg r sel => s.mov r (.reg sel)
  | .ldrAbs r addr => s.ldr r (.abs addr)
  | .ldrHl r => s.ldr r .hl
  | .strAbs r addr => s.str r (.abs addr)
  | .strHl r => s.str r .hl
  | .lhl lo hi => .ok ((s.setGpr .L lo).setGpr .H hi)
  | .pushImm imm => s.push (.imm imm)
  | .pushReg r => s.push (.reg r)
  | .pop r => do
    let v ← s.memRead s.sp
    let t ← s.writeReg r v
    let sp ← Config.increment s.cfg t.sp
    .ok (t.setSp sp)
  | .jmpAbs addr => .ok (s.jmp (.abs addr))
  | .jmpHl => .ok (s.jmp .hl)
  | .jzAbs addr => .ok (s.jz (.abs addr))
  | .jzHl => .ok (s.jz .hl)
  | .addImm r imm => s.addWith r (.imm imm) false
  | .addReg r sel => s.addWith r (.reg sel) false
  | .adcImm r imm => s.addWith r (.imm imm) s.carry
  | .adcReg r sel => s.addWith r (.reg sel) s.carry
  | .cmpImm r imm => s.compare r (.imm imm)
  | .cmpReg r sel => s.compare r (.reg sel)
  | .subImm r imm => s.combine r (.imm imm) difference
  | .subReg r sel => s.combine r (.reg sel) difference
  | .nandImm r imm => s.combine r (.imm imm) nandByte
  | .nandReg r sel => s.combine r (.reg sel) nandByte
  | .norImm r imm => s.combine r (.imm imm) norByte
  | .norReg r sel => s.combine r (.reg sel) norByte
  | .hlt => .ok (s.setHalt true)

theorem exec_eq_conclude (i : Instr) (s : State) : exec i s = conclude i s (effect i s) := by
  cases i <;> rfl

/-- Every instruction answers a next state: its effect, or the fault state of what its effect raised. -/
theorem exec_next {i : Instr} {s t : State} (h : exec i s = .next t) :
    effect i s = .ok t ∨ ∃ e, effect i s = .error e ∧
      t = s.takeFault ((Instr.writes i s).filter Loc.notMemory) e (s.pc - BitVec.ofNat 16 i.length) :=
  conclude_next (exec_eq_conclude i s ▸ h)

theorem exec_total (i : Instr) (s : State) : ∃ t, exec i s = .next t := by
  rw [exec_eq_conclude]
  cases effect i s with
  | ok t => exact ⟨t, rfl⟩
  | error e => exact ⟨_, rfl⟩

/-- What the effect of an instruction leaves: the latch, the storage no rule writes, and every location its rule does not
write. -/
structure Frame (i : Instr) (s t : State) : Prop where
  faulted : t.faulted = s.faulted
  record : t.record = s.record
  storage : s.SameStorage t
  others : ∀ loc, loc ∉ Instr.writes i s → Loc.Same s t loc

theorem setGpr_frame {i : Instr} {s : State} {g : Gpr} (v : Byte) (h : Loc.gpr g.index ∈ Instr.writes i s) :
    Frame i s (s.setGpr g v) := by
  refine ⟨by simp, by simp, ⟨by simp, by simp, by simp⟩, fun loc hl => ?_⟩
  cases loc with
  | gpr r =>
    rintro k rfl
    exact s.setGpr_gpr_other v (by rintro rfl; exact hl h)
  | _ => simp [Loc.Same]

theorem setByte_frame {i : Instr} {s : State} {a : Word} (v : Byte) (h : Loc.mem a ∈ Instr.writes i s) :
    Frame i s (s.setByte a v) := by
  refine ⟨rfl, rfl, ⟨rfl, fun _ _ => rfl, fun _ _ => rfl⟩, fun loc hl => ?_⟩
  cases loc with
  | mem b => exact s.setByte_byte_other v (by rintro rfl; exact hl h)
  | _ => simp [Loc.Same]

theorem setPc_frame {i : Instr} {s : State} (p : Word) (h : Loc.pc ∈ Instr.writes i s) :
    Frame i s (s.setPc p) := by
  refine ⟨rfl, rfl, ⟨rfl, fun _ _ => rfl, fun _ _ => rfl⟩, fun loc hl => ?_⟩
  cases loc with
  | pc => exact absurd h hl
  | _ => simp [Loc.Same]

theorem setSp_frame {i : Instr} {s : State} (p : Word) (h : Loc.sp ∈ Instr.writes i s) :
    Frame i s (s.setSp p) := by
  refine ⟨rfl, rfl, ⟨rfl, fun _ _ => rfl, fun _ _ => rfl⟩, fun loc hl => ?_⟩
  cases loc with
  | sp => exact absurd h hl
  | _ => simp [Loc.Same]

theorem setCarry_frame {i : Instr} {s : State} (v : Bool) (h : Loc.carry ∈ Instr.writes i s) :
    Frame i s (s.setCarry v) := by
  refine ⟨rfl, rfl, ⟨rfl, fun n hn => s.setCarry_f_other v (by omega), fun _ _ => rfl⟩, fun loc hl => ?_⟩
  cases loc with
  | carry => exact absurd h hl
  | _ => simp [Loc.Same]

theorem setZero_frame {i : Instr} {s : State} (v : Bool) (h : Loc.zero ∈ Instr.writes i s) :
    Frame i s (s.setZero v) := by
  refine ⟨rfl, rfl, ⟨rfl, fun n hn => s.setZero_f_other v (by omega), fun _ _ => rfl⟩, fun loc hl => ?_⟩
  cases loc with
  | zero => exact absurd h hl
  | _ => simp [Loc.Same]

theorem setHalt_frame {i : Instr} {s : State} (v : Bool) (h : Loc.halt ∈ Instr.writes i s) :
    Frame i s (s.setHalt v) := by
  refine ⟨rfl, rfl, ⟨rfl, fun _ _ => rfl, fun n hn => s.setHalt_st_other v (by omega)⟩, fun loc hl => ?_⟩
  cases loc with
  | halt => exact absurd h hl
  | _ => simp [Loc.Same]

theorem Frame.refl (i : Instr) (s : State) : Frame i s s :=
  ⟨rfl, rfl, .refl s, fun loc _ => .refl s loc⟩

/-- Two frames of one instruction, where the second update's locations are those of the first state. -/
theorem Frame.trans {i : Instr} {s t u : State} (h : Frame i s t) (h' : Frame i t u)
    (hw : Instr.writes i t = Instr.writes i s) : Frame i s u :=
  ⟨h'.faulted.trans h.faulted, h'.record.trans h.record, h.storage.trans h'.storage,
    fun loc hl => (h.others loc hl).trans (h'.others loc (hw ▸ hl))⟩

/-- The frame of every instruction whose effect succeeds. -/
theorem effect_frame {i : Instr} {s t : State} (h : effect i s = .ok t) : Frame i s t := by
  cases i with
  | nop => cases h; exact .refl _ _
  | hlt => cases h; exact setHalt_frame true (by simp [Instr.writes])
  | lhl lo hi =>
    cases h
    refine (setGpr_frame (g := .L) lo (by simp [Instr.writes, Gpr.index])).trans
      (setGpr_frame (g := .H) hi (by simp [Instr.writes, Gpr.index])) rfl
  | movImm r imm => obtain ⟨g, v, rfl, -, rfl⟩ := State.mov_ok h; exact setGpr_frame v (by simp [Instr.writes])
  | movReg r sel => obtain ⟨g, v, rfl, -, rfl⟩ := State.mov_ok h; exact setGpr_frame v (by simp [Instr.writes])
  | ldrAbs r a => obtain ⟨g, rfl, -, rfl⟩ := State.ldr_ok h; exact setGpr_frame _ (by simp [Instr.writes])
  | ldrHl r => obtain ⟨g, rfl, -, rfl⟩ := State.ldr_ok h; exact setGpr_frame _ (by simp [Instr.writes])
  | strAbs r a =>
    obtain ⟨g, rfl, -, rfl⟩ := State.str_ok h; exact setByte_frame _ (by simp [Instr.writes, State.ea])
  | strHl r =>
    obtain ⟨g, rfl, -, rfl⟩ := State.str_ok h; exact setByte_frame _ (by simp [Instr.writes, State.ea])
  | pushImm imm =>
    obtain ⟨v, -, hd, -, rfl⟩ := State.push_ok h
    refine ⟨rfl, rfl, ⟨rfl, fun _ _ => rfl, fun _ _ => rfl⟩, fun loc hl => ?_⟩
    simp [Instr.writes, State.pushLoc, hd] at hl
    cases loc with
    | mem b => exact State.setByte_byte_other _ v (by simpa using hl)
    | sp => simp at hl
    | _ => simp [Loc.Same]
  | pushReg r =>
    obtain ⟨v, -, hd, -, rfl⟩ := State.push_ok h
    refine ⟨rfl, rfl, ⟨rfl, fun _ _ => rfl, fun _ _ => rfl⟩, fun loc hl => ?_⟩
    simp [Instr.writes, State.pushLoc, hd] at hl
    cases loc with
    | mem b => exact State.setByte_byte_other _ v (by simpa using hl)
    | sp => simp at hl
    | _ => simp [Loc.Same]
  | pop r =>
    obtain ⟨g, rfl, -, rfl⟩ := pop_ok h
    exact (setGpr_frame _ (by simp [Instr.writes])).trans (setSp_frame _ (by simp [Instr.writes])) rfl
  | jmpAbs a => cases h; exact setPc_frame _ (by simp [Instr.writes])
  | jmpHl => cases h; exact setPc_frame _ (by simp [Instr.writes])
  | jzAbs a =>
    cases h
    unfold State.jz
    split
    · exact .refl _ _
    · exact setPc_frame _ (by simp [Instr.writes])
  | jzHl =>
    cases h
    unfold State.jz
    split
    · exact .refl _ _
    · exact setPc_frame _ (by simp [Instr.writes])
  | addImm r imm =>
    obtain ⟨g, v, rfl, -, rfl⟩ := State.addWith_ok h
    exact (setGpr_frame _ (by simp [Instr.writes])).trans (setCarry_frame _ (by simp [Instr.writes])) rfl
  | addReg r sel =>
    obtain ⟨g, v, rfl, -, rfl⟩ := State.addWith_ok h
    exact (setGpr_frame _ (by simp [Instr.writes])).trans (setCarry_frame _ (by simp [Instr.writes])) rfl
  | adcImm r imm =>
    obtain ⟨g, v, rfl, -, rfl⟩ := State.addWith_ok h
    exact (setGpr_frame _ (by simp [Instr.writes])).trans (setCarry_frame _ (by simp [Instr.writes])) rfl
  | adcReg r sel =>
    obtain ⟨g, v, rfl, -, rfl⟩ := State.addWith_ok h
    exact (setGpr_frame _ (by simp [Instr.writes])).trans (setCarry_frame _ (by simp [Instr.writes])) rfl
  | cmpImm r imm => obtain ⟨g, v, rfl, -, rfl⟩ := State.compare_ok h; exact setZero_frame _ (by simp [Instr.writes])
  | cmpReg r sel => obtain ⟨g, v, rfl, -, rfl⟩ := State.compare_ok h; exact setZero_frame _ (by simp [Instr.writes])
  | subImm r imm => obtain ⟨g, v, rfl, -, rfl⟩ := State.combine_ok h; exact setGpr_frame _ (by simp [Instr.writes])
  | subReg r sel => obtain ⟨g, v, rfl, -, rfl⟩ := State.combine_ok h; exact setGpr_frame _ (by simp [Instr.writes])
  | nandImm r imm => obtain ⟨g, v, rfl, -, rfl⟩ := State.combine_ok h; exact setGpr_frame _ (by simp [Instr.writes])
  | nandReg r sel => obtain ⟨g, v, rfl, -, rfl⟩ := State.combine_ok h; exact setGpr_frame _ (by simp [Instr.writes])
  | norImm r imm => obtain ⟨g, v, rfl, -, rfl⟩ := State.combine_ok h; exact setGpr_frame _ (by simp [Instr.writes])
  | norReg r sel => obtain ⟨g, v, rfl, -, rfl⟩ := State.combine_ok h; exact setGpr_frame _ (by simp [Instr.writes])

/-! ### The fault an effect raises -/

theorem State.operand_error {s : State} {src : Source} {e : OutOfBounds} (h : s.operand src = .error e) :
    ∃ sel, src = .reg sel ∧ MissingRegister sel e := by
  cases src with
  | imm v => cases h
  | reg sel => exact ⟨sel, rfl, State.readReg_error h⟩

theorem State.mov_error {s : State} {r : RegIx} {src : Source} {e : OutOfBounds} (h : s.mov r src = .error e) :
    (∃ sel, src = .reg sel ∧ MissingRegister sel e) ∨ MissingRegister r e := by
  rcases bind_error h with h | ⟨v, -, h⟩
  · exact .inl (State.operand_error h)
  · exact .inr (State.writeReg_error h)

theorem State.ldr_error {s : State} {r : RegIx} {addr : Address} {e : OutOfBounds} (h : s.ldr r addr = .error e) :
    MissingMemory s.cfg e ∨ MissingRegister r e := by
  rcases bind_error h with h | ⟨v, -, h⟩
  · exact .inl (.inl ⟨_, State.memRead_error h⟩)
  · exact .inr (State.writeReg_error h)

theorem State.str_error {s : State} {r : RegIx} {addr : Address} {e : OutOfBounds} (h : s.str r addr = .error e) :
    MissingMemory s.cfg e ∨ MissingRegister r e := by
  rcases bind_error h with h | ⟨v, -, h⟩
  · exact .inr (State.readReg_error h)
  · exact .inl (.inl ⟨_, State.memWrite_error h⟩)

theorem Config.decrement_error {c : Config} {w : Word} {e : OutOfBounds} (h : Config.decrement c w = .error e) :
    MissingMemory c e := by
  rcases Config.decrement_cases c w with hd | ⟨hf, -, hd⟩ <;> rw [hd] at h <;> cases h
  exact .inr ⟨hf, .inl rfl⟩

theorem Config.increment_error {c : Config} {w : Word} {e : OutOfBounds} (h : Config.increment c w = .error e) :
    MissingMemory c e := by
  rcases Config.increment_cases c w with hd | ⟨hf, -, hd⟩ <;> rw [hd] at h <;> cases h
  exact .inr ⟨hf, .inr rfl⟩

theorem State.push_error {s : State} {src : Source} {e : OutOfBounds} (h : s.push src = .error e) :
    (∃ sel, src = .reg sel ∧ MissingRegister sel e) ∨ MissingMemory s.cfg e := by
  rcases bind_error h with h | ⟨v, -, h⟩
  · exact .inl (State.operand_error h)
  · rcases bind_error h with h | ⟨sp, -, h⟩
    · exact .inr (Config.decrement_error h)
    · have := State.memWrite_error h
      exact .inr (.inl ⟨sp, this⟩)

theorem pop_error {s : State} {r : RegIx} {e : OutOfBounds} (h : effect (.pop r) s = .error e) :
    MissingMemory s.cfg e ∨ MissingRegister r e := by
  rcases bind_error h with h | ⟨v, -, h⟩
  · exact .inl (.inl ⟨_, State.memRead_error h⟩)
  · rcases bind_error h with h | ⟨u, -, h⟩
    · exact .inr (State.writeReg_error h)
    · rcases bind_error h with h | ⟨sp, -, h⟩
      · exact .inl (Config.increment_error h)
      · cases h

theorem State.addWith_error {s : State} {r : RegIx} {src : Source} {c : Bool} {e : OutOfBounds}
    (h : s.addWith r src c = .error e) : (∃ sel, src = .reg sel ∧ MissingRegister sel e) ∨ MissingRegister r e := by
  rcases bind_error h with h | ⟨v, -, h⟩
  · exact .inl (State.operand_error h)
  · rcases bind_error h with h | ⟨d, -, h⟩
    · exact .inr (State.readReg_error h)
    · rcases bind_error h with h | ⟨u, -, h⟩
      · exact .inr (State.writeReg_error h)
      · cases h

theorem State.compare_error {s : State} {r : RegIx} {src : Source} {e : OutOfBounds} (h : s.compare r src = .error e) :
    (∃ sel, src = .reg sel ∧ MissingRegister sel e) ∨ MissingRegister r e := by
  rcases bind_error h with h | ⟨v, -, h⟩
  · exact .inl (State.operand_error h)
  · rcases bind_error h with h | ⟨d, -, h⟩
    · exact .inr (State.readReg_error h)
    · cases h

theorem State.combine_error {s : State} {r : RegIx} {src : Source} {op : Byte → Byte → Byte} {e : OutOfBounds}
    (h : s.combine r src op = .error e) : (∃ sel, src = .reg sel ∧ MissingRegister sel e) ∨ MissingRegister r e := by
  rcases bind_error h with h | ⟨v, -, h⟩
  · exact .inl (State.operand_error h)
  · rcases bind_error h with h | ⟨d, -, h⟩
    · exact .inr (State.readReg_error h)
    · exact .inr (State.writeReg_error h)

/-- An effect raises OutOfBounds for a register field it accesses, or for an address. -/
theorem effect_error {i : Instr} {s : State} {e : OutOfBounds} (h : effect i s = .error e) :
    (∃ r ∈ i.accessed, MissingRegister r e) ∨ MissingMemory s.cfg e := by
  have two : ∀ {r : RegIx} {src : Source} {l : List RegIx}, r ∈ l → (∀ sel, src = .reg sel → sel ∈ l) →
      ((∃ sel, src = .reg sel ∧ MissingRegister sel e) ∨ MissingRegister r e) →
      (∃ r ∈ l, MissingRegister r e) ∨ MissingMemory s.cfg e := by
    rintro r src l hr hs (⟨sel, hsel, hm⟩ | hm)
    · exact .inl ⟨sel, hs sel hsel, hm⟩
    · exact .inl ⟨r, hr, hm⟩
  cases i with
  | nop | hlt | lhl | jmpAbs | jmpHl | jzAbs | jzHl => cases h
  | movImm | movReg => exact two (by simp [Instr.accessed]) (by simp [Instr.accessed]) (State.mov_error h)
  | addImm | addReg | adcImm | adcReg =>
    exact two (by simp [Instr.accessed]) (by simp [Instr.accessed]) (State.addWith_error h)
  | cmpImm | cmpReg => exact two (by simp [Instr.accessed]) (by simp [Instr.accessed]) (State.compare_error h)
  | subImm | subReg | nandImm | nandReg | norImm | norReg =>
    exact two (by simp [Instr.accessed]) (by simp [Instr.accessed]) (State.combine_error h)
  | ldrAbs r _ | ldrHl r => exact (State.ldr_error h).symm.imp (fun hm => ⟨r, by simp [Instr.accessed], hm⟩) id
  | strAbs r _ | strHl r => exact (State.str_error h).symm.imp (fun hm => ⟨r, by simp [Instr.accessed], hm⟩) id
  | pop r => exact (pop_error h).symm.imp (fun hm => ⟨r, by simp [Instr.accessed], hm⟩) id
  | pushImm imm =>
    rcases State.push_error h with ⟨sel, hs, -⟩ | hm
    · cases hs
    · exact .inr hm
  | pushReg r =>
    rcases State.push_error h with ⟨sel, hs, hm⟩ | hm
    · cases hs
      exact .inl ⟨r, by simp [Instr.accessed], hm⟩
    · exact .inr hm

/-! ### Memory's form -/

theorem setByte_memory {s : State} {a : Word} (v : Byte) (h : Memory.wf s.mem) (hb : ∀ p ∈ s.mem, p.1 < s.cfg.memSize)
    (ha : s.backed a = true) : Memory.wf (s.setByte a v).mem ∧ ∀ p ∈ (s.setByte a v).mem, p.1 < s.cfg.memSize := by
  refine ⟨Memory.write_wf _ _ h, fun p hp => ?_⟩
  rcases Memory.mem_write hp with hp | ⟨rfl, -⟩
  · exact hb p hp
  · simpa [State.backed] using ha

/-- A successful effect keeps memory in its form and within the backed addresses. -/
theorem effect_memory {i : Instr} {s t : State} (h : effect i s = .ok t) (hm : Memory.wf s.mem)
    (hb : ∀ p ∈ s.mem, p.1 < s.cfg.memSize) : Memory.wf t.mem ∧ ∀ p ∈ t.mem, p.1 < s.cfg.memSize := by
  cases i with
  | strAbs r _ | strHl r =>
    obtain ⟨g, rfl, ha, rfl⟩ := State.str_ok h
    exact setByte_memory _ hm hb ha
  | pushImm _ | pushReg _ =>
    obtain ⟨v, -, -, ha, rfl⟩ := State.push_ok h
    exact setByte_memory (s := s.setSp (s.sp - 1#16)) v hm hb ha
  | movImm | movReg => obtain ⟨g, v, rfl, -, rfl⟩ := State.mov_ok h; rw [State.setGpr_mem]; exact ⟨hm, hb⟩
  | ldrAbs | ldrHl => obtain ⟨g, rfl, -, rfl⟩ := State.ldr_ok h; rw [State.setGpr_mem]; exact ⟨hm, hb⟩
  | pop r => obtain ⟨g, rfl, -, rfl⟩ := pop_ok h; rw [State.setSp_mem, State.setGpr_mem]; exact ⟨hm, hb⟩
  | addImm | addReg | adcImm | adcReg =>
    obtain ⟨g, v, rfl, -, rfl⟩ := State.addWith_ok h
    rw [State.setCarry_mem, State.setGpr_mem]
    exact ⟨hm, hb⟩
  | cmpImm | cmpReg => obtain ⟨g, v, rfl, -, rfl⟩ := State.compare_ok h; exact ⟨hm, hb⟩
  | subImm | subReg | nandImm | nandReg | norImm | norReg =>
    obtain ⟨g, v, rfl, -, rfl⟩ := State.combine_ok h; rw [State.setGpr_mem]; exact ⟨hm, hb⟩
  | lhl lo hi =>
    cases h
    rw [State.setGpr_mem, State.setGpr_mem]
    exact ⟨hm, hb⟩
  | jzAbs | jzHl =>
    cases h
    unfold State.jz
    split <;> exact ⟨hm, hb⟩
  | nop | hlt | jmpAbs | jmpHl => cases h; exact ⟨hm, hb⟩

end Sys2Proof.Machine
end

