-- ==== Sys2Proof/Laws/Fetch.lean ====
section
/-! SUPPORT. The fetch of an instruction: when it succeeds and with which bytes, and what the fault state of a fetch leaves. -/

namespace Sys2Proof.Machine

theorem State.fetchByte_ok {s : State} (hb : s.backed s.pc = true) (ho : s.cfg.overflow = .wrap ∨ s.pc ≠ 0xFFFF#16) :
    s.fetchByte = .ok (s.byte s.pc, (s.setPc (s.pc + 1#16))) := by
  simp [State.fetchByte, State.memRead_backed hb, Config.increment_ok ho]

/-- A fetch answers the byte at PC and the state past it, or the error of R52 or R28. -/
theorem State.fetchByte_cases (s : State) :
    (s.backed s.pc = true ∧ s.fetchByte = .ok (s.byte s.pc, (s.setPc (s.pc + 1#16)))) ∨
      (s.backed s.pc = false ∧ s.fetchByte = .error (oobMem s.pc)) ∨
      (s.backed s.pc = true ∧ s.cfg.overflow = .fault ∧ s.pc = 0xFFFF#16 ∧
        s.fetchByte = .error ⟨.mem, 0x10000⟩) := by
  cases hb : s.backed s.pc with
  | false => simp [State.fetchByte, State.memRead_unbacked hb]
  | true =>
    rcases Config.increment_cases s.cfg s.pc with h | ⟨hf, hp, h⟩
    · simp [State.fetchByte, State.memRead_backed hb, h]
    · exact .inr (.inr ⟨rfl, hf, hp, by simp only [State.fetchByte, State.memRead_backed hb, h, ok_bind, error_bind]⟩)

theorem State.fetchByte_error {s : State} {e : OutOfBounds} (h : s.fetchByte = .error e) : MissingMemory s.cfg e := by
  rcases s.fetchByte_cases with ⟨-, h'⟩ | ⟨hb, h'⟩ | ⟨-, hf, -, h'⟩ <;> rw [h'] at h <;> cases h
  · exact .inl ⟨s.pc, by simpa [State.backed] using hb, rfl⟩
  · exact .inr ⟨hf, .inr rfl⟩

theorem State.fetchByte_next {s t : State} {b : Byte} (h : s.fetchByte = .ok (b, t)) :
    b = s.byte s.pc ∧ t = (s.setPc (s.pc + 1#16)) := by
  rcases s.fetchByte_cases with ⟨-, h'⟩ | ⟨-, h'⟩ | ⟨-, -, -, h'⟩ <;> rw [h'] at h <;> cases h
  exact ⟨rfl, rfl⟩

theorem add_ofNat_succ (a : Word) (k : Nat) : a + 1#16 + BitVec.ofNat 16 k = a + BitVec.ofNat 16 (k + 1) := by
  rw [BitVec.add_assoc, ← BitVec.ofNat_add, Nat.add_comm]

theorem State.fetchBytes_ok {n : Nat} {s : State} (h : Fetchable s n) :
    s.fetchBytes n = ((List.range n).map (fun k => s.byte (s.pc + BitVec.ofNat 16 k)),
      .ok (s.setPc (s.pc + BitVec.ofNat 16 n))) := by
  induction n generalizing s with
  | zero => simp [State.fetchBytes]
  | succ n ih =>
    obtain ⟨hb, ho⟩ := h
    have hb0 := hb 0 (by omega)
    have ho0 : s.cfg.overflow = .wrap ∨ s.pc ≠ 0xFFFF#16 := ho.imp id (by intro h hp; simp [hp] at h)
    have hrest : Fetchable (s.setPc (s.pc + 1#16)) n := by
      refine ⟨fun k hk => ?_, ho.imp id (fun h => ?_)⟩
      · have := hb (k + 1) (by omega)
        rw [← add_ofNat_succ] at this
        exact this
      · show (s.pc + 1#16).toNat + n ≤ 65535
        have : (s.pc + 1#16).toNat ≤ s.pc.toNat + 1 := by
          rw [BitVec.toNat_add]
          exact (Nat.mod_le _ _).trans (by simp)
        omega
    simp at hb0
    simp [State.fetchBytes, State.fetchByte_ok hb0 ho0, ih hrest, List.range_succ_eq_map, add_ofNat_succ,
      Function.comp_def]

/-- The fetched bytes' state differs in PC alone, and a failure is OutOfBounds(MEM). -/
theorem State.fetchBytes_next {n : Nat} {s t : State} {bs : List Byte} (h : s.fetchBytes n = (bs, .ok t)) :
    t = s.setPc (s.pc + BitVec.ofNat 16 n) := by
  induction n generalizing s bs with
  | zero => simp [State.fetchBytes] at h; simp [h.2]
  | succ n ih =>
    simp only [State.fetchBytes] at h
    split at h
    · simp at h
    · rename_i b u hu
      obtain ⟨-, rfl⟩ := State.fetchByte_next hu
      have := ih (s := s.setPc (s.pc + 1#16)) (bs := (State.fetchBytes n (s.setPc (s.pc + 1#16))).1)
        (by ext1 <;> simp_all)
      rw [this, State.setPc_setPc, State.setPc_pc, add_ofNat_succ]

theorem State.fetchBytes_error {n : Nat} {s : State} {bs : List Byte} {e : OutOfBounds}
    (h : s.fetchBytes n = (bs, .error e)) : MissingMemory s.cfg e := by
  induction n generalizing s bs with
  | zero => simp [State.fetchBytes] at h
  | succ n ih =>
    simp only [State.fetchBytes] at h
    split at h
    · rename_i e' he
      have : e' = e := by simpa using (congrArg Prod.snd h)
      exact this ▸ State.fetchByte_error he
    · rename_i b u hu
      obtain ⟨-, rfl⟩ := State.fetchByte_next hu
      exact ih (s := s.setPc (s.pc + 1#16)) (bs := (State.fetchBytes n (s.setPc (s.pc + 1#16))).1)
        (by ext1 <;> simp_all)

/-- What `Execute1()` does, said once: the fault state of the opcode fetch, the fault state of an operand fetch, or the
decoded instruction past its bytes. -/
theorem State.execute1_cases (s : State) :
    (∃ e, s.fetchByte = .error e ∧ s.execute1 = .next (s.faultInFetch s.seenByte e)) ∨
    (∃ op operands e, s.backed s.pc = true ∧ op = s.byte s.pc ∧
      State.fetchBytes (operandCount op) (s.setPc (s.pc + 1#16)) = (operands, .error e) ∧
      s.execute1 = .next (s.faultInFetch (op :: operands) e)) ∨
    (∃ op operands u, s.backed s.pc = true ∧ op = s.byte s.pc ∧
      State.fetchBytes (operandCount op) (s.setPc (s.pc + 1#16)) = (operands, .ok u) ∧
      s.execute1 = exec (decodeFields op (operands.getD 0 0) (operands.getD 1 0)) u) := by
  rcases s.fetchByte_cases with ⟨hb, h⟩ | ⟨-, h⟩ | ⟨-, -, -, h⟩
  · rcases hf : State.fetchBytes (operandCount (s.byte s.pc)) (s.setPc (s.pc + 1#16)) with ⟨bs, (e | u)⟩
    · exact .inr (.inl ⟨_, bs, e, hb, rfl, hf, by simp [State.execute1, h, hf]⟩)
    · exact .inr (.inr ⟨_, bs, u, hb, rfl, hf, by simp [State.execute1, h, hf]⟩)
  · exact .inl ⟨_, h, by simp [State.execute1, h]⟩
  · exact .inl ⟨_, h, by simp [State.execute1, h]⟩

/-- The locations a fault in the fetch leaves unspecified. -/
def fetchFaultWrites (s : State) (seen : List Byte) : List Loc :=
  match seen with
  | [] => [.pc]
  | op :: operands =>
    Instr.writes (decodeFields op (operands.getD 0 (Config.freeByte s.draws))
      (operands.getD 1 (Config.freeByte (s.draws + 1)))) s

theorem State.faultInFetch_faulted (s : State) (seen : List Byte) (e : OutOfBounds) :
    (s.faultInFetch seen e).faulted = true ∧ (s.faultInFetch seen e).record = ⟨e.kind.cause, e.info, s.pc⟩ := by
  cases seen <;> exact ⟨rfl, rfl⟩

theorem State.faultInFetch_same (s : State) (seen : List Byte) (e : OutOfBounds) {loc : Loc}
    (h : loc ∉ fetchFaultWrites s seen) : Loc.Same s (s.faultInFetch seen e) loc := by
  cases seen with
  | nil => exact s.takeFault_same _ e _ h
  | cons op operands =>
    have := State.takeFault_same (s.setDraws (s.draws + 2)) _ e s.pc h
    refine Loc.Same.trans ?_ this
    cases loc <;> simp [Loc.Same]

theorem State.faultInFetch_storage (s : State) (seen : List Byte) (e : OutOfBounds) :
    s.SameStorage (s.faultInFetch seen e) := by
  cases seen with
  | nil => exact s.takeFault_storage _ e _
  | cons op operands =>
    have := State.takeFault_storage (s.setDraws (s.draws + 2)) (fetchFaultWrites s (op :: operands)) e s.pc
    exact ⟨this.cfg, this.flags, this.status⟩

theorem State.faultInFetch_memory {s : State} (seen : List Byte) (e : OutOfBounds) (hm : Memory.wf s.mem)
    (hb : ∀ p ∈ s.mem, p.1 < s.cfg.memSize) :
    Memory.wf (s.faultInFetch seen e).mem ∧ ∀ q ∈ (s.faultInFetch seen e).mem, q.1 < s.cfg.memSize := by
  cases seen with
  | nil => exact State.takeFault_memory _ e _ hm hb
  | cons op operands => exact State.takeFault_memory (s := s.setDraws (s.draws + 2)) _ e s.pc hm hb

/-! ### Placing bytes -/

theorem State.placeBytes_frame (s : State) (a : Word) (bs : List Byte) :
    (s.placeBytes a bs).cfg = s.cfg ∧ (∀ g, (s.placeBytes a bs).gpr g = s.gpr g) ∧ (s.placeBytes a bs).pc = s.pc ∧
      (s.placeBytes a bs).sp = s.sp ∧ (s.placeBytes a bs).f = s.f ∧ (s.placeBytes a bs).st = s.st ∧
      (s.placeBytes a bs).faulted = s.faulted ∧ (s.placeBytes a bs).record = s.record := by
  induction bs generalizing s a with
  | nil => simp [State.placeBytes]
  | cons b bs ih =>
    have := ih (if s.backed a then s.setByte a b else s) (a + 1#16)
    simp only [State.placeBytes]
    split <;> simp_all

theorem State.placeBytes_memory {s : State} (a : Word) (bs : List Byte) (hm : Memory.wf s.mem)
    (hb : ∀ p ∈ s.mem, p.1 < s.cfg.memSize) :
    Memory.wf (s.placeBytes a bs).mem ∧ ∀ p ∈ (s.placeBytes a bs).mem, p.1 < s.cfg.memSize := by
  induction bs generalizing s a with
  | nil => exact ⟨hm, hb⟩
  | cons b bs ih =>
    simp only [State.placeBytes]
    split
    · rename_i ha
      have := setByte_memory b hm hb ha
      exact ih (s := s.setByte a b) _ this.1 this.2
    · exact ih _ hm hb

end Sys2Proof.Machine
end

