-- ==== Sys2Proof/Laws/PerInstr.lean ====
section
/-! SUPPORT. Per instruction: the encoder writes as many bytes as R86 gives the form, and its opcode byte holds the count. -/

namespace Sys2Proof.Laws.EncodingLength

/-- The canonical encoding has the length of R86, one to three bytes, and the opcode byte alone tells it (R87). -/
def Statement (i : Instr) : Prop :=
  (encode i).length = i.length ∧ 1 ≤ i.length ∧ i.length ≤ 3 ∧
    ∀ op ∈ (encode i).head?, i.length = 1 + operandCount op

theorem nop : Statement .nop := by simp [Statement, encode, Instr.length, operandCount, Opcode.operandBytes]
theorem movImm (r imm) : Statement (.movImm r imm) := by
  simp [Statement, encode, Instr.length, operandCount, Opcode.operandBytes]
theorem movReg (r sel) : Statement (.movReg r sel) := by
  simp [Statement, encode, Instr.length, operandCount, Opcode.operandBytes]
theorem ldrAbs (r addr) : Statement (.ldrAbs r addr) := by
  simp [Statement, encode, Instr.length, operandCount, Opcode.operandBytes]
theorem ldrHl (r) : Statement (.ldrHl r) := by simp [Statement, encode, Instr.length, operandCount, Opcode.operandBytes]
theorem strAbs (r addr) : Statement (.strAbs r addr) := by
  simp [Statement, encode, Instr.length, operandCount, Opcode.operandBytes]
theorem strHl (r) : Statement (.strHl r) := by simp [Statement, encode, Instr.length, operandCount, Opcode.operandBytes]
theorem lhl (lo hi) : Statement (.lhl lo hi) := by
  simp [Statement, encode, Instr.length, operandCount, Opcode.operandBytes]
theorem pushImm (imm) : Statement (.pushImm imm) := by
  simp [Statement, encode, Instr.length, operandCount, Opcode.operandBytes]
theorem pushReg (r) : Statement (.pushReg r) := by
  simp [Statement, encode, Instr.length, operandCount, Opcode.operandBytes]
theorem pop (r) : Statement (.pop r) := by simp [Statement, encode, Instr.length, operandCount, Opcode.operandBytes]
theorem jmpAbs (addr) : Statement (.jmpAbs addr) := by
  simp [Statement, encode, Instr.length, operandCount, Opcode.operandBytes]
theorem jmpHl : Statement .jmpHl := by simp [Statement, encode, Instr.length, operandCount, Opcode.operandBytes]
theorem jzAbs (addr) : Statement (.jzAbs addr) := by
  simp [Statement, encode, Instr.length, operandCount, Opcode.operandBytes]
theorem jzHl : Statement .jzHl := by simp [Statement, encode, Instr.length, operandCount, Opcode.operandBytes]
theorem addImm (r imm) : Statement (.addImm r imm) := by
  simp [Statement, encode, Instr.length, operandCount, Opcode.operandBytes]
theorem addReg (r sel) : Statement (.addReg r sel) := by
  simp [Statement, encode, Instr.length, operandCount, Opcode.operandBytes]
theorem adcImm (r imm) : Statement (.adcImm r imm) := by
  simp [Statement, encode, Instr.length, operandCount, Opcode.operandBytes]
theorem adcReg (r sel) : Statement (.adcReg r sel) := by
  simp [Statement, encode, Instr.length, operandCount, Opcode.operandBytes]
theorem cmpImm (r imm) : Statement (.cmpImm r imm) := by
  simp [Statement, encode, Instr.length, operandCount, Opcode.operandBytes]
theorem cmpReg (r sel) : Statement (.cmpReg r sel) := by
  simp [Statement, encode, Instr.length, operandCount, Opcode.operandBytes]
theorem subImm (r imm) : Statement (.subImm r imm) := by
  simp [Statement, encode, Instr.length, operandCount, Opcode.operandBytes]
theorem subReg (r sel) : Statement (.subReg r sel) := by
  simp [Statement, encode, Instr.length, operandCount, Opcode.operandBytes]
theorem nandImm (r imm) : Statement (.nandImm r imm) := by
  simp [Statement, encode, Instr.length, operandCount, Opcode.operandBytes]
theorem nandReg (r sel) : Statement (.nandReg r sel) := by
  simp [Statement, encode, Instr.length, operandCount, Opcode.operandBytes]
theorem norImm (r imm) : Statement (.norImm r imm) := by
  simp [Statement, encode, Instr.length, operandCount, Opcode.operandBytes]
theorem norReg (r sel) : Statement (.norReg r sel) := by
  simp [Statement, encode, Instr.length, operandCount, Opcode.operandBytes]
theorem hlt : Statement .hlt := by simp [Statement, encode, Instr.length, operandCount, Opcode.operandBytes]

end Sys2Proof.Laws.EncodingLength
end

