-- ==== Sys2Proof/Laws/Step.lean ====
section
/-! SUPPORT. What one step does: the cases of `step`, and the decoded instruction of a fetch that succeeds. -/

namespace Sys2Proof.Machine

theorem operandBytes_le_two (o : Opcode) (m : Bool) : o.operandBytes m ≤ 2 := by
  cases o <;> cases m <;> decide

/-- A decoded instruction is as long as its opcode byte says (30_encoding.md R86, R87). -/
theorem decodeFields_length (op b1 b2 : Byte) : (decodeFields op b1 b2).length = 1 + operandCount op := by
  unfold decodeFields operandCount
  cases Opcode.ofBits (opcodeField op) <;> cases modeField op <;> rfl

/-- Only the operand bytes R86 counts are looked at. -/
theorem decodeFields_fetched (op : Byte) (read : Nat → Byte) :
    decodeFields op (((List.range (operandCount op)).map read).getD 0 0)
        (((List.range (operandCount op)).map read).getD 1 0) =
      decodeFields op (read 0) (read 1) := by
  unfold decodeFields operandCount
  cases Opcode.ofBits (opcodeField op) <;> cases modeField op <;> simp [Opcode.operandBytes, List.range_succ]

/-- What stands in for an operand byte that the form does not have plays no part. -/
theorem decodeFields_default (op : Byte) {bs : List Byte} (h : bs.length = operandCount op) (a b c d : Byte) :
    decodeFields op (bs.getD 0 a) (bs.getD 1 b) = decodeFields op (bs.getD 0 c) (bs.getD 1 d) := by
  obtain ⟨x, y, rfl⟩ | ⟨x, rfl⟩ | rfl : (∃ x y, bs = [x, y]) ∨ (∃ x, bs = [x]) ∨ bs = [] := by
    have : bs.length ≤ 2 := h ▸ operandBytes_le_two _ _
    match bs, this with
    | [], _ => simp
    | [x], _ => simp
    | [x, y], _ => simp
  · rfl
  all_goals
    unfold operandCount at h
    unfold decodeFields
    revert h
    cases Opcode.ofBits (opcodeField op) <;> cases modeField op <;> simp [Opcode.operandBytes]

/-- A fetch that succeeds reads as many bytes as it is asked for. -/
theorem State.fetchBytes_length {n : Nat} {s t : State} {bs : List Byte} (h : s.fetchBytes n = (bs, .ok t)) :
    bs.length = n := by
  induction n generalizing s bs with
  | zero => simp [State.fetchBytes] at h; simp [← h.1]
  | succ n ih =>
    simp only [State.fetchBytes] at h
    split at h
    · simp at h
    · rename_i b u hu
      have := ih (s := u) (bs := (State.fetchBytes n u).1) (by ext1 <;> simp_all)
      simp at h
      rw [← h.1, List.length_cons, this]

theorem step_faulted {s : State} (h : s.faulted = true) : step s = .fault (.coreFaulted s.record) := by
  simp [step, h]

theorem step_halted {s : State} (hf : s.faulted = false) (hh : s.halt = true) : step s = .next s := by
  simp [step, hf, hh]

theorem step_runnable {s : State} (h : s.Runnable) : step s = s.execute1 := by
  simp [step, h.1, h.2]

/-- A next state is the same state of a halted core, or what `Execute1()` answers. -/
theorem step_next {s t : State} (h : step s = .next t) :
    s.faulted = false ∧ ((s.halt = true ∧ t = s) ∨ (s.halt = false ∧ s.execute1 = .next t)) := by
  unfold step at h
  cases hf : s.faulted <;> cases hh : s.halt <;> simp_all

/-- What can be fetched from PC on, byte by byte. -/
theorem Fetchable.succ {s : State} {n : Nat} (h : Fetchable s (n + 1)) :
    s.backed s.pc = true ∧ (s.cfg.overflow = .wrap ∨ s.pc ≠ 0xFFFF#16) ∧ Fetchable (s.setPc (s.pc + 1#16)) n := by
  obtain ⟨hb, ho⟩ := h
  refine ⟨by simpa using hb 0 (by omega), ho.imp id (by intro h hp; simp [hp] at h), fun k hk => ?_,
    ho.imp id (fun h => ?_)⟩
  · have := hb (k + 1) (by omega)
    rwa [← add_ofNat_succ] at this
  · have : (s.pc + 1#16).toNat ≤ s.pc.toNat + 1 := by
      rw [BitVec.toNat_add]
      exact (Nat.mod_le _ _).trans (by simp)
    show (s.pc + 1#16).toNat + n ≤ 65535
    omega

/-- `Execute1()` of an instruction whose bytes can be fetched is `exec` of it, PC past its bytes. -/
theorem State.execute1_fetchable {s : State} (h : Fetchable s (operandCount (s.byte s.pc) + 1)) :
    s.execute1 = exec (decodeFields (s.byte s.pc) (s.byte (s.pc + 1#16)) (s.byte (s.pc + 2#16)))
      (s.setPc (s.pc + BitVec.ofNat 16 (operandCount (s.byte s.pc) + 1))) := by
  obtain ⟨hb, ho, hr⟩ := h.succ
  have := decodeFields_fetched (s.byte s.pc) (fun k => s.byte (s.pc + BitVec.ofNat 16 (k + 1)))
  simp only [State.execute1, State.fetchByte_ok hb ho, State.fetchBytes_ok hr, State.setPc_setPc, State.setPc_pc,
    State.setPc_byte, add_ofNat_succ]
  rw [this]

end Sys2Proof.Machine
end

