-- ==== Sys2Proof/Laws/Port.lean ====
section
/-! SUPPORT. What the operations of the command port do. -/

namespace Sys2Proof.Machine

theorem rangeAddr_zero (a : Word) : rangeAddr a 0 = a := by simp [rangeAddr]

theorem rangeAddr_succ (a : Word) (i : Nat) : rangeAddr (a + 1#16) i = rangeAddr a (i + 1) := add_ofNat_succ ..

theorem State.firstUnbacked_none {s : State} {n : Nat} {a : Word} :
    s.firstUnbacked a n = none ↔ ∀ i < n, s.backed (rangeAddr a i) = true := by
  induction n generalizing a with
  | zero => simp [State.firstUnbacked]
  | succ n ih =>
    unfold State.firstUnbacked
    split
    · rename_i ha
      rw [ih]
      refine ⟨fun h i hi => ?_, fun h i hi => rangeAddr_succ a i ▸ h (i + 1) (by omega)⟩
      cases i with
      | zero => rwa [rangeAddr_zero]
      | succ i => exact rangeAddr_succ a i ▸ h i (by omega)
    · rename_i ha
      exact ⟨by simp, fun h => absurd (rangeAddr_zero a ▸ h 0 (by omega)) ha⟩

/-- The error of a load or dump names the first unbacked address. -/
theorem State.firstUnbacked_first {s : State} {n m : Nat} {a : Word} (hm : n < m)
    (h : ∀ i < n, s.backed (rangeAddr a i) = true) (hn : s.backed (rangeAddr a n) = false) :
    s.firstUnbacked a m = some (rangeAddr a n) := by
  induction n generalizing a m with
  | zero =>
    obtain ⟨m, rfl⟩ : ∃ k, m = k + 1 := ⟨m - 1, by omega⟩
    rw [rangeAddr_zero] at hn ⊢
    simp [State.firstUnbacked, hn]
  | succ n ih =>
    obtain ⟨m, rfl⟩ : ∃ k, m = k + 1 := ⟨m - 1, by omega⟩
    have h0 := h 0 (by omega)
    rw [rangeAddr_zero] at h0
    rw [State.firstUnbacked, if_pos h0, ← rangeAddr_succ]
    exact ih (by omega) (fun i hi => rangeAddr_succ a i ▸ h (i + 1) (by omega)) (rangeAddr_succ a n ▸ hn)

/-- A failed load changes memory and the counter of free values alone. -/
theorem State.loadPartly_frame (s : State) (a : Word) (bs : List Byte) :
    (s.loadPartly a bs).cfg = s.cfg ∧ (∀ g, (s.loadPartly a bs).gpr g = s.gpr g) ∧ (s.loadPartly a bs).pc = s.pc ∧
      (s.loadPartly a bs).sp = s.sp ∧ (s.loadPartly a bs).f = s.f ∧ (s.loadPartly a bs).st = s.st ∧
      (s.loadPartly a bs).faulted = s.faulted ∧ (s.loadPartly a bs).record = s.record := by
  induction bs generalizing s a with
  | nil => simp [State.loadPartly]
  | cons b bs ih =>
    simp only [State.loadPartly]
    split
    · simpa using ih ((s.setDraws (s.draws + 1)).setByte a b) (a + 1#16)
    · simpa using ih (s.setDraws (s.draws + 1)) (a + 1#16)

/-- `step()` as the host sees it: what it reports of the state that `step` answers. -/
theorem State.stepReply_cases (s : State) :
    (s.faulted = true ∧ s.stepReply = (.fault s.record, s)) ∨
    (s.faulted = false ∧ s.halt = true ∧ s.stepReply = (.halted, s)) ∨
    (s.faulted = false ∧ s.halt = false ∧
      ((∃ t, step s = .next t ∧ s.stepReply = if t.faulted then (.fault t.record, t) else (.ok, t)) ∨
        ((∀ t, step s ≠ .next t) ∧ s.stepReply = (.fault s.record, s)))) := by
  unfold State.stepReply
  cases hf : s.faulted <;> cases hh : s.halt <;> simp
  cases step s <;> simp

end Sys2Proof.Machine
end

