-- ==== Sys2Proof/Tests/Slice0.lean ====
section
/-! SUPPORT. The model's own tests. The expected values are those of spec/95_test_vectors.md (the section is named) or are
computed by hand from the rule named. The last part shows, for each statement with hypotheses, states that meet them. -/

namespace Sys2Proof.Tests

open Sys2Proof Sys2Proof.Machine Sys2Proof.Claims

/-! ### Helpers -/

/-- The reset state with bytes loaded at address 0. -/
def blank (bytes : List Byte) : State := State.reset.placeBytes 0x0000#16 bytes

/-- The same with MEM_SIZE = 0x1000. -/
def small (bytes : List Byte) : State := (State.resetWith { memSize := 0x1000, overflow := .wrap }).placeBytes 0x0000#16 bytes

/-- The same with WRAP16_OVERFLOW = fault. -/
def strict (bytes : List Byte) : State := (State.resetWith { memSize := 65536, overflow := .fault }).placeBytes 0x0000#16 bytes

/-- The outcome is a next state that passes the test. -/
def answers (o : Host.Outcome State Fault Refusal) (p : State → Bool) : Bool :=
  match o with
  | .next t => p t
  | .fault _ => false
  | .refused _ => false

/-- The step completes in a state that passes the test. -/
def completes (s : State) (p : State → Bool) : Bool := answers (step s) (fun t => !t.faulted && p t)

/-- The step faults with this record and passes the test on what R247 leaves unchanged. -/
def faultsWith (s : State) (cause : FaultCause) (info : Int) (faultPc : Word) (p : State → Bool) : Bool :=
  answers (step s) (fun t => t.faulted && decide (t.record = ⟨cause, info, faultPc⟩) && p t)

theorem answers_next {o : Host.Outcome State Fault Refusal} {p : State → Bool} (h : answers o p = true) :
    ∃ t, o = .next t ∧ p t = true := by
  cases o with
  | next t => exact ⟨t, rfl, h⟩
  | fault _ => cases h
  | refused _ => cases h

theorem answers_any {o : Host.Outcome State Fault Refusal} (h : answers o (fun _ => true) = true) : ∃ t, o = .next t :=
  (answers_next h).imp fun _ ht => ht.1

/-! ### Well-formedness: each check refuses an ill-formed term (10_state.md R23, 30_encoding.md R91) -/

theorem test_wellFormed_accepts_the_six_registers :
    (Instr.movReg 0 5).wellFormed = true ∧ (Instr.pushReg 5).wellFormed = true ∧ (Instr.lhl 0xFF 0xFF).wellFormed = true := by
  decide

theorem test_wellFormed_refuses_a_missing_destination :
    (Instr.movImm 6 0).wellFormed = false ∧ (Instr.movReg 7 0).wellFormed = false ∧ (Instr.ldrAbs 6 0).wellFormed = false ∧
      (Instr.ldrHl 7).wellFormed = false ∧ (Instr.strAbs 7 0).wellFormed = false ∧ (Instr.strHl 6).wellFormed = false ∧
      (Instr.pushReg 6).wellFormed = false ∧ (Instr.pop 7).wellFormed = false := by
  decide

theorem test_wellFormed_refuses_a_missing_alu_register :
    (Instr.addImm 6 0).wellFormed = false ∧ (Instr.adcImm 7 0).wellFormed = false ∧ (Instr.cmpImm 6 0).wellFormed = false ∧
      (Instr.subImm 7 0).wellFormed = false ∧ (Instr.nandImm 6 0).wellFormed = false ∧
      (Instr.norImm 7 0).wellFormed = false := by
  decide

theorem test_wellFormed_refuses_a_missing_selector :
    (Instr.movReg 0 6).wellFormed = false ∧ (Instr.addReg 0 7).wellFormed = false ∧ (Instr.adcReg 0 6).wellFormed = false ∧
      (Instr.cmpReg 0 7).wellFormed = false ∧ (Instr.subReg 0 6).wellFormed = false ∧
      (Instr.nandReg 0 7).wellFormed = false ∧ (Instr.norReg 0 6).wellFormed = false := by
  decide

/-! ### Decoding: words written out from 30_encoding.md R81, R84 to R89 -/

/-- 95_test_vectors.md 1.1: the fields of an opcode byte. -/
theorem test_fields_of_the_opcode_byte :
    opcodeField 0x2A = 0x2#4 ∧ modeField 0x2A = true ∧ regField 0x2A = 2#3 ∧ opcodeField 0x91 = 0x9#4 ∧
      modeField 0x91 = false ∧ regField 0x91 = 1#3 ∧ opcodeField 0xFF = 0xF#4 ∧ regField 0xFF = 7#3 := by
  decide

theorem test_decode_transfer :
    decode [0x10, 0x06] = .ok (.movImm 0 0x06, []) ∧ decode [0b00011101, 0b00000010] = .ok (.movReg 5 2, []) ∧
      decode [0x23, 0x34, 0x12] = .ok (.ldrAbs 3 0x1234, []) ∧ decode [0x2C] = .ok (.ldrHl 4, []) ∧
      decode [0x31, 0x00, 0x02] = .ok (.strAbs 1 0x0200, []) ∧ decode [0x3D] = .ok (.strHl 5, []) ∧
      decode [0x40, 0xCD, 0xAB] = .ok (.lhl 0xCD 0xAB, []) := by
  decide

theorem test_decode_stack_and_branch :
    decode [0x50, 0x77] = .ok (.pushImm 0x77, []) ∧ decode [0x59] = .ok (.pushReg 1, []) ∧
      decode [0x63] = .ok (.pop 3, []) ∧ decode [0x70, 0x34, 0x12] = .ok (.jmpAbs 0x1234, []) ∧
      decode [0x78] = .ok (.jmpHl, []) ∧ decode [0x80, 0x02, 0x00] = .ok (.jzAbs 0x0002, []) ∧
      decode [0x88] = .ok (.jzHl, []) := by
  decide

theorem test_decode_add_adc_cmp :
    decode [0x91, 0x01] = .ok (.addImm 1 0x01, []) ∧ decode [0x98, 0x02] = .ok (.addReg 0 2, []) ∧
      decode [0xA2, 0xFF] = .ok (.adcImm 2 0xFF, []) ∧ decode [0xA9, 0x03] = .ok (.adcReg 1 3, []) ∧
      decode [0xB0, 0x05] = .ok (.cmpImm 0 0x05, []) ∧ decode [0xBC, 0x05] = .ok (.cmpReg 4 5, []) := by
  decide

theorem test_decode_logic_and_system :
    decode [0xC3, 0x01] = .ok (.subImm 3 0x01, []) ∧ decode [0xC9, 0x01] = .ok (.subReg 1 1, []) ∧
      decode [0xD0, 0x3C] = .ok (.nandImm 0 0x3C, []) ∧ decode [0xDA, 0x01] = .ok (.nandReg 2 1, []) ∧
      decode [0xE3, 0x00] = .ok (.norImm 3 0x00, []) ∧ decode [0xE8, 0x04] = .ok (.norReg 0 4, []) ∧
      decode [0x00] = .ok (.nop, []) ∧ decode [0xF0] = .ok (.hlt, []) := by
  decide

/-- R84, R88: ignored fields (95_test_vectors.md 2.1, 2.4 to 2.7, 2.14). -/
theorem test_decode_ignored_fields :
    decode [0x0F] = .ok (.nop, []) ∧ decode [0xF8] = .ok (.hlt, []) ∧ decode [0x18, 0xF9] = .ok (.movReg 0 1, []) ∧
      decode [0x47, 0xCD, 0xAB] = .ok (.lhl 0xCD 0xAB, []) ∧ decode [0x57, 0x33] = .ok (.pushImm 0x33, []) ∧
      decode [0x68] = .ok (.pop 0, []) ∧ decode [0x7D] = .ok (.jmpHl, []) ∧ decode [0x8A] = .ok (.jzHl, []) := by
  decide

/-- Register indices 6 and 7 decode (R82); only missing bytes are refused, by name. -/
theorem test_decode_refuses_only_missing_bytes :
    decode [0x16, 0x01] = .ok (.movImm 6 0x01, []) ∧ decode [] = .error .noOpcodeByte ∧
      decode [0x20, 0x34] = .error (.missingOperandBytes .ldr 2 1) ∧
      decode [0x90] = .error (.missingOperandBytes .add 1 0) ∧ decode [0x00, 0xF0] = .ok (.nop, [0xF0]) := by
  decide

/-- The encodings of the programs P1 to P5 of 95_test_vectors.md, instruction by instruction. -/
theorem test_encode_program_words :
    encode (.subImm 0 1) = [0xC0, 0x01] ∧ encode (.jzAbs 0x0002) = [0x80, 0x02, 0x00] ∧
      encode (.lhl 0x00 0x01) = [0x40, 0x00, 0x01] ∧ encode (.strHl 0) = [0x38] ∧
      encode (.ldrAbs 1 0x0100) = [0x21, 0x00, 0x01] ∧ encode (.pushReg 1) = [0x59] ∧ encode (.pop 2) = [0x62] ∧
      encode (.adcReg 1 3) = [0xA9, 0x03] ∧ encode (.nandReg 2 1) = [0xDA, 0x01] ∧ encode .jmpHl = [0x78] := by
  decide

/-- The opcode-table numbering: the first byte is the low one, and bits from nbits on are 0. -/
theorem test_decodeTableWord_numbering :
    decodeTableWord 24 0x123420 = some (.ldrAbs 0 0x1234) ∧ decodeTableWord 8 0x123420 = some (.ldrAbs 0 0x0000) ∧
      decodeTableWord 16 0x0610 = some (.movImm 0 0x06) := by
  decide

/-! ### One step per test -/

/-- 2.1. -/
theorem test_movImm_leaves_flags :
    completes { blank [0x15, 0x00] with h := 0x55, f := 0x0003 } (fun t => t.h == 0x00 && t.f == 0x0003 && t.pc == 2) = true := by
  decide

theorem test_movReg_copies_the_selected_register :
    completes { blank [0x18, 0xF9] with b := 0x42 } (fun t => t.a == 0x42 && t.b == 0x42 && t.pc == 2) = true := by
  decide

theorem test_movReg_selector_6_faults :
    faultsWith (blank [0x18, 0x06]) .oobReg 6 0x0000 (fun t => t.b == 0 && t.f == 0 && t.mem == (blank [0x18, 0x06]).mem) =
      true := by
  decide

/-- 2.2. -/
theorem test_ldrAbs_fetches_across_the_wrap :
    completes { State.reset.placeBytes 0xFFFE#16 [0x20, 0x34, 0x12] with pc := 0xFFFE } (fun t => t.pc == 1 && t.a == 0) = true ∧
      completes { (State.reset.placeBytes 0xFFFE#16 [0x20, 0x34, 0x12]).setByte 0x1234 0xAB with pc := 0xFFFE }
        (fun t => t.pc == 1 && t.a == 0xAB) = true := by
  decide

theorem test_ldrHl_reads_hl_before_writing_l :
    completes { (blank [0x2C]).setByte 0x0100 0x77 with h := 0x01 } (fun t => t.l == 0x77 && t.h == 0x01 && t.pc == 1) =
      true := by
  decide

theorem test_ldr_memory_fault_comes_before_the_register_fault :
    faultsWith (small [0x27, 0x00, 0x20]) .oobMem 0x2000 0x0000 (fun t => t.a == 0 && t.sp == 0) = true := by
  decide

/-- 2.3. -/
theorem test_strAbs_may_overwrite_its_own_operand :
    completes { blank [0x30, 0x01, 0x00] with a := 0x99 } (fun t => t.byte 1 == 0x99 && t.pc == 3) = true := by
  decide

theorem test_strHl_stores_at_hl :
    completes { blank [0x3D] with l := 0x34, h := 0x12 } (fun t => t.byte 0x1234 == 0x12 && t.pc == 1) = true := by
  decide

theorem test_strAbs_out_of_range_writes_nothing :
    faultsWith { small [0x30, 0x00, 0x10] with a := 0x01 } .oobMem 0x1000 0x0000
      (fun t => t.a == 0x01 && t.mem == (small [0x30, 0x00, 0x10]).mem) = true := by
  decide

theorem test_strHl_missing_register_writes_nothing :
    faultsWith (blank [0x3E]) .oobReg 6 0x0000 (fun t => t.mem == (blank [0x3E]).mem) = true := by
  decide

/-- 2.4. -/
theorem test_lhl_takes_the_low_byte_first :
    completes { blank [0x47, 0xCD, 0xAB] with f := 0x0003 }
      (fun t => t.l == 0xCD && t.h == 0xAB && t.hl == 0xABCD && t.f == 0x0003 && t.pc == 3) = true := by
  decide

/-- 2.5. -/
theorem test_pushReg_wraps_sp :
    completes { blank [0x58] with a := 0x12 } (fun t => t.sp == 0xFFFF && t.byte 0xFFFF == 0x12 && t.pc == 1) = true := by
  decide

theorem test_pushImm_stores_below_sp :
    completes { blank [0x57, 0x33] with sp := 0x0100 }
      (fun t => t.sp == 0x00FF && t.byte 0x00FF == 0x33 && t.byte 0x0100 == 0x00 && t.pc == 2) = true := by
  decide

theorem test_push_faults_are_those_of_the_vectors :
    faultsWith { blank [0x5E] with sp := 0x0100 } .oobReg 6 0x0000 (fun t => t.mem == (blank [0x5E]).mem) = true ∧
      faultsWith (small [0x58]) .oobMem 0xFFFF 0x0000 (fun t => t.mem == (small [0x58]).mem) = true ∧
      faultsWith (strict [0x58]) .oobMem (-1) 0x0000 (fun t => t.mem == (strict [0x58]).mem) = true := by
  decide

/-- 2.6. -/
theorem test_pop_wraps_sp :
    completes { (blank [0x61]).setByte 0xFFFF 0x12 with sp := 0xFFFF } (fun t => t.b == 0x12 && t.sp == 0x0000 && t.pc == 1) =
      true := by
  decide

theorem test_pop_of_nothing_pushed_reads_its_own_byte :
    completes (blank [0x62]) (fun t => t.c == 0x62 && t.sp == 0x0001 && t.pc == 1) = true ∧
      faultsWith { blank [0x66] with sp := 0x0200 } .oobReg 6 0x0000 (fun t => t.a == 0) = true := by
  decide

/-- 2.7. -/
theorem test_jmpAbs_past_memory_faults_only_at_the_next_step :
    completes (small [0x70, 0x00, 0x20]) (fun t => t.pc == 0x2000) = true ∧
      faultsWith { small [0x70, 0x00, 0x20] with pc := 0x2000 } .oobMem 0x2000 0x2000 (fun t => t.sp == 0) = true := by
  decide

theorem test_jmpHl_goes_to_hl :
    completes { blank [0x7D] with l := 0x10, h := 0x20 } (fun t => t.pc == 0x2010) = true := by
  decide

/-- 1.5, 2.8: taken when ZERO is clear. -/
theorem test_jzAbs_is_taken_when_zero_is_clear :
    completes { blank [0x80, 0x34, 0x12] with f := 0x0002 } (fun t => t.pc == 0x1234 && t.f == 0x0002) = true ∧
      completes { blank [0x80, 0x34, 0x12] with f := 0x0003 } (fun t => t.pc == 0x0003) = true := by
  decide

theorem test_jzHl_is_taken_when_zero_is_clear :
    completes { blank [0x88] with l := 0x10, h := 0x20 } (fun t => t.pc == 0x2010) = true ∧
      completes { blank [0x88] with l := 0x10, h := 0x20, f := 0x0001 } (fun t => t.pc == 0x0001) = true := by
  decide

/-- 2.9. -/
theorem test_addImm_sets_carry_and_leaves_zero :
    completes { blank [0x90, 0x01] with a := 0xFF, f := 0x0001 } (fun t => t.a == 0x00 && t.f == 0x0003 && t.pc == 2) = true ∧
      completes { blank [0x90, 0x80] with a := 0x7F, f := 0x0003 } (fun t => t.a == 0xFF && t.f == 0x0001) = true := by
  decide

theorem test_addReg_of_itself :
    completes { blank [0x98, 0x00] with a := 0x81 } (fun t => t.a == 0x02 && t.f == 0x0002 && t.pc == 2) = true := by
  decide

/-- 2.10, the D19 corner among them. -/
theorem test_adcImm_carry_comes_from_the_whole_sum :
    completes { blank [0xA0, 0x80] with a := 0x7F, f := 0x0003 } (fun t => t.a == 0x00 && t.f == 0x0003) = true ∧
      completes { blank [0xA0, 0xFF] with a := 0xFF, f := 0x0003 } (fun t => t.a == 0xFF && t.f == 0x0003) = true := by
  decide

/-- Program P3, its sixth instruction. -/
theorem test_adcReg_adds_the_carry :
    completes { blank [0xA9, 0x03] with b := 0x01, f := 0x0002 } (fun t => t.b == 0x02 && t.f == 0x0000 && t.pc == 2) = true := by
  decide

/-- 2.11. -/
theorem test_cmpImm_sets_and_clears_zero_only :
    completes { blank [0xB0, 0x05] with a := 0x05, f := 0x0002 } (fun t => t.a == 0x05 && t.f == 0x0003) = true ∧
      completes { blank [0xB0, 0x06] with a := 0x05, f := 0x0001 } (fun t => t.a == 0x05 && t.f == 0x0000) = true := by
  decide

theorem test_cmpReg_of_itself :
    completes { blank [0xB8, 0x00] with a := 0x37 } (fun t => t.a == 0x37 && t.f == 0x0001 && t.pc == 2) = true := by
  decide

/-- 2.12. -/
theorem test_subImm_wraps_and_leaves_flags :
    completes { blank [0xC0, 0x20] with a := 0x10, f := 0x0003 } (fun t => t.a == 0xF0 && t.f == 0x0003 && t.pc == 2) = true := by
  decide

/-- By hand from R175: x[r] minus x[sel], in this order. -/
theorem test_subReg_subtracts_the_selected_register :
    completes { blank [0xC9, 0x02] with b := 0x05, c := 0x07 } (fun t => t.b == 0xFE && t.c == 0x07 && t.f == 0x0000) = true := by
  decide

/-- 2.13. -/
theorem test_nandImm_leaves_flags :
    completes { blank [0xD0, 0x3C] with a := 0x0F, f := 0x0003 } (fun t => t.a == 0xF3 && t.f == 0x0003 && t.pc == 2) = true := by
  decide

theorem test_nandReg_of_itself_and_its_fault :
    completes { blank [0xD8, 0x00] with a := 0x0F } (fun t => t.a == 0xF0) = true ∧
      faultsWith (blank [0xD8, 0x07]) .oobReg 7 0x0000 (fun t => t.f == 0) = true := by
  decide

theorem test_norImm_leaves_flags :
    completes { blank [0xE0, 0x3C] with a := 0x0F, f := 0x0003 } (fun t => t.a == 0xC0 && t.f == 0x0003 && t.pc == 2) = true := by
  decide

/-- By hand from R177. -/
theorem test_norReg_uses_the_selected_register :
    completes { blank [0xE9, 0x00] with a := 0x55, b := 0xA0 } (fun t => t.b == 0x0A && t.a == 0x55) = true := by
  decide

/-- 2.14. -/
theorem test_nop_only_advances_pc :
    completes (blank [0x0F]) (fun t => decide (t = { blank [0x0F] with pc := 1 })) = true := by
  decide

theorem test_hlt_sets_bit_0_of_s_alone :
    completes { blank [0xF8] with f := 0x0003, st := 0x8000 } (fun t => t.st == 0x8001 && t.f == 0x0003 && t.pc == 1) = true := by
  decide

/-! ### Fetch faults: by hand from 10_state.md R28, 20_memory.md R52, 60_exceptions.md R247 -/

theorem test_operand_fetch_past_memory_faults :
    faultsWith { (small []).setByte 0x0FFF 0x91 with pc := 0x0FFF } .oobMem 0x1000 0x0FFF
      (fun t => t.a == 0 && t.c == 0 && t.st == 0 && t.sp == 0) = true := by
  decide

theorem test_pc_overflow_faults_where_configured :
    faultsWith { strict [] with pc := 0xFFFF } .oobMem 0x10000 0xFFFF (fun t => t.a == 0 && t.f == 0) = true := by
  decide

/-! ### The sequencer and the command port (95_test_vectors.md 2.15, 2.16) -/

theorem test_step_of_a_halted_core_changes_nothing :
    (State.stepReply { blank [0x10, 0x05] with st := 0x0001 }) = (.halted, { blank [0x10, 0x05] with st := 0x0001 }) := by
  decide

/-- 1.7, and the second `run()` of 2.15. -/
theorem test_run_stops_at_hlt_and_starts_past_it :
    (State.run 1 (blank [0xF0, 0x10, 0x05, 0xF0])).map (fun p => (p.1, p.2.pc, p.2.st, p.2.a)) =
      some (.done, 0x0001#16, 0x0001#16, 0x00#8) ∧
    (State.run 2 { blank [0xF0, 0x10, 0x05, 0xF0] with pc := 1, st := 1 }).map (fun p => (p.1, p.2.pc, p.2.st, p.2.a)) =
      some (.done, 0x0004#16, 0x0001#16, 0x05#8) := by
  decide

/-- P6: the fault is reported again, and nothing changes. -/
theorem test_a_faulted_core_reports_its_record :
    ((blank [0x16, 0x01, 0xF0]).run 3).map (fun p => (p.1, p.2.faulted, p.2.f)) =
      some (.fault ⟨.oobReg, 6, 0x0000⟩, true, 0x0000#16) ∧
    State.stepReply { blank [] with faulted := true, record := ⟨.oobReg, 6, 0x0000⟩ } =
      (.fault ⟨.oobReg, 6, 0x0000⟩, { blank [] with faulted := true, record := ⟨.oobReg, 6, 0x0000⟩ }) := by
  decide

theorem test_load_wraps_its_addresses :
    ((State.reset.load 0xFFFF [0x11, 0x22]).2.byte 0xFFFF, (State.reset.load 0xFFFF [0x11, 0x22]).2.byte 0x0000) =
      (0x11#8, 0x22#8) := by
  decide

theorem test_load_past_memory_is_an_error :
    ((small []).perform 0 (.load 0x0FFF [0x11, 0x22])).map Prod.fst = some (.error ⟨.mem, 0x1000⟩) := by
  decide

theorem test_bad_register_index_is_an_error :
    State.reset.perform 0 (.writeGpr 6 0x01) = some (.error ⟨.reg, 6⟩, State.reset) := by
  decide

/-! ### A placed word runs next -/

theorem test_withFetchWord_runs_the_word :
    completes (State.reset.withFetchWord 16 0x0610) (fun t => t.a == 0x06 && t.pc == 2) = true ∧
      completes (State.reset.withFetchWord 24 0xABCD40) (fun t => t.hl == 0xABCD && t.pc == 3) = true := by
  decide

/-! ### The statements' hypotheses are met together

One theorem for each statement of Obligations.lean that has hypotheses, named after it: concrete states and operands that
meet all of them, each clause at the edge of its range. -/

/-- The reset state with MOV A,#6 at PC and a value in H. -/
def running : State := { blank [0x10, 0x06] with h := 0x01, sp := 0x0200 }

/-- A core that MOV r6,#1 has faulted (P6). -/
def faulted : State := { blank [0x16, 0x01] with faulted := true, record := ⟨.oobReg, 6, 0x0000⟩ }

/-- A core halted by HLT. -/
def halted : State := { blank [0xF0] with pc := 1, st := 1 }

/-- MEM_SIZE = 0x1000, with PC, SP and HL at the first address that is not backed. -/
def edge : State := { small [] with pc := 0x1000, sp := 0x1000, l := 0x00, h := 0x10 }

theorem witness_ResetMeetsInvariant :
    Config.standard.Valid ∧ Config.Valid { memSize := 1, overflow := .fault } := by decide

theorem running_inv : running.Inv :=
  ⟨by decide, by decide, by decide, fun _ => rfl, fun h => by cases h⟩

theorem faulted_inv : faulted.Inv :=
  ⟨by decide, by decide, by decide, fun h => (by cases h), fun _ => .inl ⟨rfl, .inl rfl⟩⟩

theorem witness_StepKeepsInvariant : running.Inv ∧ ∃ t, step running = .next t :=
  ⟨running_inv, answers_any (by decide)⟩

theorem witness_CommandsKeepInvariant :
    running.Inv ∧ (∃ r t, running.perform 0 (.load 0xFFFF [0x11, 0x22]) = some (r, t)) ∧
      faulted.Inv ∧ ∃ r t, faulted.perform 1 .run = some (r, t) :=
  ⟨running_inv, ⟨_, _, rfl⟩, faulted_inv, ⟨_, _, rfl⟩⟩

theorem witness_DecodeTakesExactlyTheBytesOfTheLengthTable :
    operandCount 0x20 ≤ [0x34#8, 0x12#8].length ∧ [0x34#8].length < operandCount 0x20 := by decide

theorem witness_StepRunsTheDecodedInstruction :
    running.Runnable ∧
      decode [running.byte running.pc, running.byte (running.pc + 1#16), running.byte (running.pc + 2#16)] =
        .ok (.movImm 0 0x06, [0x00]) ∧
      Fetchable running (Instr.movImm 0 0x06).length :=
  ⟨⟨by decide, by decide⟩, by decide, ⟨by decide, by decide⟩⟩

theorem witness_PlacedWordRunsNext :
    Memory.wf running.mem ∧ Fetchable running 3 ∧ decodeTableWord 24 0x123420 = some (.ldrAbs 0 0x1234) :=
  ⟨by decide, ⟨by decide, by decide⟩, by decide⟩

/-- Runnable, completing and faulting; the other two clauses are those of the next witness. -/
theorem witness_StepReportsOneOfThreeOutcomes :
    (running.Runnable ∧ ∃ t, running.execute1 = .next t ∧ (!t.faulted) = true) ∧
      (blank [0x16, 0x01]).Runnable ∧ ∃ t, (blank [0x16, 0x01]).execute1 = .next t ∧ t.faulted = true :=
  ⟨⟨⟨by decide, by decide⟩, answers_next (p := fun t => !t.faulted) (by decide)⟩,
    ⟨by decide, by decide⟩, answers_next (p := State.faulted) (by decide)⟩

theorem witness_FaultedAndHaltedStepsDoNothing :
    faulted.faulted = true ∧ halted.faulted = false ∧ halted.halt = true := by decide

theorem witness_EveryStepTerminates : running.faulted = false ∧ halted.faulted = false := by decide

theorem witness_OpcodeFetchOutOfRangeFaults : edge.Runnable ∧ edge.cfg.memSize ≤ edge.pc.toNat :=
  ⟨⟨by decide, by decide⟩, by decide⟩

/-- The first and the second operand byte of LDR A,[a], at the edge of memory. -/
theorem witness_OperandFetchOutOfRangeFaults :
    let one : State := { (small []).setByte 0x0FFF 0x20 with pc := 0x0FFF }
    let two : State := { (small []).setByte 0x0FFE 0x20 with pc := 0x0FFE }
    (one.Runnable ∧ 1 ≤ operandCount (one.byte one.pc) ∧ Fetchable one 1 ∧
        one.cfg.memSize ≤ (one.pc + BitVec.ofNat 16 1).toNat) ∧
      two.Runnable ∧ 2 ≤ operandCount (two.byte two.pc) ∧ Fetchable two 2 ∧
        two.cfg.memSize ≤ (two.pc + BitVec.ofNat 16 2).toNat :=
  ⟨⟨⟨by decide, by decide⟩, by decide, ⟨by decide, by decide⟩, by decide⟩,
    ⟨by decide, by decide⟩, by decide, ⟨by decide, by decide⟩, by decide⟩

/-- The opcode fetch of NOP, and the second operand fetch of JMP. -/
theorem witness_PcOverflowFaultsWhereConfigured :
    let op : State := { strict [] with pc := 0xFFFF }
    let operand : State := { (strict []).setByte 0xFFFD 0x70 with pc := 0xFFFD }
    (op.Runnable ∧ op.cfg.overflow = .fault ∧ 0 ≤ operandCount (op.byte op.pc) ∧ op.pc.toNat + 0 = 0xFFFF ∧
        ∀ j ≤ 0, op.backed (op.pc + BitVec.ofNat 16 j) = true) ∧
      operand.Runnable ∧ operand.cfg.overflow = .fault ∧ 2 ≤ operandCount (operand.byte operand.pc) ∧
        operand.pc.toNat + 2 = 0xFFFF ∧ ∀ j ≤ 2, operand.backed (operand.pc + BitVec.ofNat 16 j) = true :=
  ⟨⟨⟨by decide, by decide⟩, by decide, by decide, by decide, by decide⟩,
    ⟨by decide, by decide⟩, by decide, by decide, by decide, by decide⟩

/-- A register fault of ADD; faults of the operand fetch of STR and of PUSH; an opcode byte that cannot be read; and STR of a
missing register, all its bytes fetched. -/
theorem witness_FaultKeepsWhatTheRuleDoesNotWrite :
    let str : State := { (small []).setByte 0x0FFE 0x30 with pc := 0x0FFE }
    let push : State := { (small []).setByte 0x0FFF 0x50 with pc := 0x0FFF }
    ((blank [0x96, 0x01]).Runnable ∧ ∃ t, step (blank [0x96, 0x01]) = .next t ∧ t.faulted = true) ∧
      (str.Runnable ∧ (∃ t, step str = .next t ∧ t.faulted = true) ∧ operandsRead str = [0x00]) ∧
      (push.Runnable ∧ (∃ t, step push = .next t ∧ t.faulted = true) ∧ push.pushLoc = [.mem 0xFFFF]) ∧
      (edge.Runnable ∧ (∃ t, step edge = .next t ∧ t.faulted = true) ∧ edge.backed edge.pc = false) ∧
      (blank [0x3E]).Runnable ∧ (∃ t, step (blank [0x3E]) = .next t ∧ t.faulted = true) ∧ Fetchable (blank [0x3E]) 1 :=
  ⟨⟨⟨by decide, by decide⟩, answers_next (p := State.faulted) (by decide)⟩,
    ⟨⟨by decide, by decide⟩, answers_next (p := State.faulted) (by decide), by decide⟩,
    ⟨⟨by decide, by decide⟩, answers_next (p := State.faulted) (by decide), by decide⟩,
    ⟨⟨by decide, by decide⟩, answers_next (p := State.faulted) (by decide), by decide⟩,
    ⟨by decide, by decide⟩, answers_next (p := State.faulted) (by decide), ⟨by decide, by decide⟩⟩

/-- One that completes and one that faults. -/
theorem witness_InstructionChangesOnlyWhatItsRuleWrites :
    (∃ t, exec (.addImm 0 0xFF) running = .next t) ∧ ∃ t, exec (.strAbs 0 0x1000) edge = .next t :=
  ⟨answers_any (by decide), answers_any (by decide)⟩

/-- MOV; JMP; JZ taken and not taken. -/
theorem witness_PcAdvancesByTheBytesConsumed :
    let jz : State := blank [0x80, 0x34, 0x12]
    (running.Runnable ∧ (∃ t, step running = .next t ∧ (!t.faulted) = true) ∧ instrAt running = .movImm 0 0x06) ∧
      (jz.Runnable ∧ (∃ t, step jz = .next t ∧ (!t.faulted) = true) ∧ instrAt jz = .jzAbs 0x1234 ∧ jz.zero = false) ∧
      (∃ t, step { jz with f := 0x0001 } = .next t ∧ (!t.faulted) = true) ∧ State.zero { jz with f := 0x0001 } = true ∧
      (∃ t, step (blank [0x78]) = .next t ∧ (!t.faulted) = true) ∧ instrAt (blank [0x78]) = .jmpHl :=
  ⟨⟨⟨by decide, by decide⟩, answers_next (p := fun t => !t.faulted) (by decide), by decide⟩,
    ⟨⟨by decide, by decide⟩, answers_next (p := fun t => !t.faulted) (by decide), by decide, by decide⟩,
    answers_next (p := fun t => !t.faulted) (by decide), by decide,
    answers_next (p := fun t => !t.faulted) (by decide), by decide⟩

theorem witness_RegisterResultFrame :
    (ResultOnlyIn 5 (.ldrHl 5) ∧ ∃ t, exec (.ldrHl 5) running = .next t) ∧
      ResultOnlyIn 6 (.norReg 6 0) ∧ ∃ t, exec (.norReg 6 0) running = .next t :=
  ⟨⟨rfl, answers_any (by decide)⟩, rfl, answers_any (by decide)⟩

theorem witness_FlagWriterFrame :
    (∃ t, exec (.addImm 5 0xFF) running = .next t) ∧ (∃ t, exec (.addReg 5 7) running = .next t) ∧
      (∃ t, exec (.adcImm 0 0x00) running = .next t) ∧ (∃ t, exec (.adcReg 0 5) running = .next t) ∧
      (∃ t, exec (.cmpImm 0 0x00) running = .next t) ∧ ∃ t, exec (.cmpReg 6 0) running = .next t :=
  ⟨answers_any (by decide), answers_any (by decide), answers_any (by decide), answers_any (by decide),
    answers_any (by decide), answers_any (by decide)⟩

/-- The last backed address, and the first that is not. -/
theorem witness_StoreFrame :
    (AddressIs edge (.strAbs 0) (.strHl 0) (.strAbs 0 0x0FFF) 0x0FFF ∧ ∃ t, exec (.strAbs 0 0x0FFF) edge = .next t) ∧
      AddressIs edge (.strAbs 0) (.strHl 0) (.strHl 0) 0x1000 ∧ ∃ t, exec (.strHl 0) edge = .next t :=
  ⟨⟨.inl ⟨rfl, rfl⟩, answers_any (by decide)⟩, .inr ⟨rfl, by decide⟩, answers_any (by decide)⟩

/-- SP = 0 with a decrement that wraps, one that faults, and a POP. -/
theorem witness_StackFrame :
    ((∃ t, exec (.pushImm 0x77) (blank []) = .next t) ∧ Config.decrement (blank []).cfg (blank []).sp = .ok 0xFFFF) ∧
      ((∃ t, exec (.pushReg 5) (strict []) = .next t) ∧
        Config.decrement (strict []).cfg (strict []).sp = .error ⟨.mem, -1⟩) ∧
      ∃ t, exec (.pop 5) running = .next t :=
  ⟨⟨answers_any (by decide), by decide⟩, ⟨answers_any (by decide), by decide⟩, answers_any (by decide)⟩

theorem witness_LhlAndControlFrame :
    (∃ t, exec (.lhl 0x34 0x12) running = .next t) ∧ (∃ t, exec (.jmpAbs 0x1234) running = .next t) ∧
      (∃ t, exec .jmpHl running = .next t) ∧ (∃ t, exec (.jzAbs 0x1234) running = .next t) ∧
      (∃ t, exec .jzHl running = .next t) ∧ (∃ t, exec .nop running = .next t) ∧ ∃ t, exec .hlt running = .next t :=
  ⟨answers_any (by decide), answers_any (by decide), answers_any (by decide), answers_any (by decide),
    answers_any (by decide), answers_any (by decide), answers_any (by decide)⟩

/-- Both forms of each operand: the immediate, and the register that is also the destination. -/
theorem witness_MovLoadsTheOperand :
    OperandIs running (.movImm 5) (.movReg 5) (.movImm 5 0xFF) 0xFF ∧
      OperandIs running (.movImm Gpr.H.index) (.movReg Gpr.H.index) (.movReg 5 5) 0x01 :=
  ⟨.inl rfl, .inr ⟨.H, rfl, rfl⟩⟩

theorem witness_LdrLoadsTheByte :
    (AddressIs edge (.ldrAbs Gpr.L.index) (.ldrHl Gpr.L.index) (.ldrAbs 4 0x0FFF) 0x0FFF ∧
        (0x0FFF#16).toNat < edge.cfg.memSize) ∧
      AddressIs running (.ldrAbs Gpr.L.index) (.ldrHl Gpr.L.index) (.ldrHl 4) 0x0100 ∧
        (0x0100#16).toNat < running.cfg.memSize :=
  ⟨⟨.inl ⟨rfl, rfl⟩, by decide⟩, .inr ⟨rfl, by decide⟩, by decide⟩

theorem witness_StrStoresTheRegister :
    (Memory.wf edge.mem ∧ AddressIs edge (.strAbs Gpr.H.index) (.strHl Gpr.H.index) (.strAbs 5 0x0FFF) 0x0FFF ∧
        (0x0FFF#16).toNat < edge.cfg.memSize) ∧
      Memory.wf running.mem ∧ AddressIs running (.strAbs Gpr.H.index) (.strHl Gpr.H.index) (.strHl 5) 0x0100 ∧
        (0x0100#16).toNat < running.cfg.memSize :=
  ⟨⟨by decide, .inl ⟨rfl, rfl⟩, by decide⟩, by decide, .inr ⟨rfl, by decide⟩, by decide⟩

/-- SP = 0 that wraps, and SP = 1 where a decrement of 0 would fault. -/
theorem witness_PushStoresBelowSp :
    (Memory.wf (blank []).mem ∧ OperandIs (blank []) .pushImm .pushReg (.pushImm 0x77) 0x77 ∧
        ((blank []).cfg.overflow = .wrap ∨ (blank []).sp ≠ 0x0000#16) ∧
        ((blank []).sp - 1#16).toNat < (blank []).cfg.memSize) ∧
      let one : State := { strict [] with sp := 1, a := 0x12 }
      Memory.wf one.mem ∧ OperandIs one .pushImm .pushReg (.pushReg 0) 0x12 ∧
        (one.cfg.overflow = .wrap ∨ one.sp ≠ 0x0000#16) ∧ (one.sp - 1#16).toNat < one.cfg.memSize :=
  ⟨⟨by decide, .inl rfl, by decide, by decide⟩, by decide, .inr ⟨.A, rfl, rfl⟩, by decide, by decide⟩

theorem witness_PopLoadsTheByteAtSp :
    let last : State := { blank [] with sp := 0xFFFF }
    let before : State := { strict [] with sp := 0xFFFE }
    (last.sp.toNat < last.cfg.memSize ∧ (last.cfg.overflow = .wrap ∨ last.sp ≠ 0xFFFF#16)) ∧
      before.sp.toNat < before.cfg.memSize ∧ (before.cfg.overflow = .wrap ∨ before.sp ≠ 0xFFFF#16) := by
  decide

theorem witness_JumpsSetPc :
    AddressIs running .jmpAbs .jmpHl (.jmpAbs 0xFFFF) 0xFFFF ∧ AddressIs running .jmpAbs .jmpHl .jmpHl 0x0100 ∧
      AddressIs running .jzAbs .jzHl (.jzAbs 0x0000) 0x0000 ∧ AddressIs running .jzAbs .jzHl .jzHl 0x0100 :=
  ⟨.inl ⟨rfl, rfl⟩, .inr ⟨rfl, by decide⟩, .inl ⟨rfl, rfl⟩, .inr ⟨rfl, by decide⟩⟩

theorem witness_AddWrapsAndSetsCarry :
    OperandIs running (.addImm Gpr.H.index) (.addReg Gpr.H.index) (.addImm 5 0xFF) 0xFF ∧
      OperandIs running (.addImm Gpr.H.index) (.addReg Gpr.H.index) (.addReg 5 5) 0x01 :=
  ⟨.inl rfl, .inr ⟨.H, rfl, rfl⟩⟩

theorem witness_AdcAddsTheCarryIn :
    OperandIs running (.adcImm Gpr.H.index) (.adcReg Gpr.H.index) (.adcImm 5 0xFF) 0xFF ∧
      OperandIs running (.adcImm Gpr.H.index) (.adcReg Gpr.H.index) (.adcReg 5 5) 0x01 :=
  ⟨.inl rfl, .inr ⟨.H, rfl, rfl⟩⟩

theorem witness_CmpSetsZeroOnEquality :
    OperandIs running (.cmpImm Gpr.H.index) (.cmpReg Gpr.H.index) (.cmpImm 5 0x01) 0x01 ∧
      OperandIs running (.cmpImm Gpr.H.index) (.cmpReg Gpr.H.index) (.cmpReg 5 0) 0x00 :=
  ⟨.inl rfl, .inr ⟨.A, rfl, rfl⟩⟩

theorem witness_SubWrapsWithoutFlags :
    OperandIs running (.subImm Gpr.H.index) (.subReg Gpr.H.index) (.subImm 5 0x02) 0x02 ∧
      OperandIs running (.subImm Gpr.H.index) (.subReg Gpr.H.index) (.subReg 5 5) 0x01 :=
  ⟨.inl rfl, .inr ⟨.H, rfl, rfl⟩⟩

theorem witness_NandAndNorComplementWithoutFlags :
    OperandIs running (.nandImm Gpr.H.index) (.nandReg Gpr.H.index) (.nandImm 5 0xFF) 0xFF ∧
      OperandIs running (.nandImm Gpr.H.index) (.nandReg Gpr.H.index) (.nandReg 5 5) 0x01 ∧
      OperandIs running (.norImm Gpr.H.index) (.norReg Gpr.H.index) (.norImm 5 0x00) 0x00 ∧
      OperandIs running (.norImm Gpr.H.index) (.norReg Gpr.H.index) (.norReg 5 0) 0x00 :=
  ⟨.inl rfl, .inr ⟨.H, rfl, rfl⟩, .inl rfl, .inr ⟨.A, rfl, rfl⟩⟩

/-- A missing r, a missing sel, and those that read memory first. -/
theorem witness_MissingRegisterFaults :
    (Instr.movReg 0 6).wellFormed = false ∧
      ((Instr.ldrAbs 7 0x0FFF).wellFormed = false ∧ edge.backed 0x0FFF = true) ∧
      ((Instr.ldrHl 6).wellFormed = false ∧ running.backed running.hl = true) ∧
      (Instr.pop 6).wellFormed = false ∧ running.backed running.sp = true := by
  decide

/-- Each of the four accesses, at the first address that is not backed. -/
theorem witness_DataAccessOutOfRangeFaults :
    edge.cfg.memSize ≤ (0x1000#16).toNat ∧ AddressIs edge (.ldrAbs 7) (.ldrHl 7) (.ldrHl 7) 0x1000 ∧
      AddressIs edge (.strAbs Gpr.A.index) (.strHl Gpr.A.index) (.strAbs 0 0x1000) 0x1000 ∧ edge.sp = 0x1000 ∧
      let push : State := { edge with sp := 0x1001 }
      push.cfg.memSize ≤ (0x1000#16).toNat ∧ OperandIs push .pushImm .pushReg (.pushImm 0x77) 0x77 ∧
        (push.cfg.overflow = .wrap ∨ push.sp ≠ 0x0000#16) ∧ 0x1000#16 = push.sp - 1#16 :=
  ⟨by decide, .inr ⟨rfl, by decide⟩, .inl ⟨rfl, rfl⟩, rfl, by decide, .inl rfl, by decide, by decide⟩

theorem witness_SpOverflowFaultsWhereConfigured :
    ((strict []).cfg.overflow = .fault ∧ OperandIs (strict []) .pushImm .pushReg (.pushReg 0) 0x00 ∧
        (strict []).sp = 0x0000) ∧
      let last : State := { strict [] with sp := 0xFFFF }
      last.cfg.overflow = .fault ∧ last.sp = 0xFFFF ∧ last.backed last.sp = true :=
  ⟨⟨by decide, .inr ⟨.A, rfl, rfl⟩, by decide⟩, by decide, by decide, by decide⟩

/-- A well-formed STR that faults at memory. -/
theorem witness_OnlyMissingRegistersRaiseRegisterFaults :
    (∃ t, exec (.strAbs 0 0x1000) edge = .next t ∧ t.faulted = true) ∧ edge.faulted = false ∧
      (Instr.strAbs 0 0x1000).wellFormed = true :=
  ⟨answers_next (p := State.faulted) (by decide), by decide, by decide⟩

theorem witness_FullMemoryLeavesOnlyRegisterFaults :
    (blank [0x17, 0x01]).cfg = { memSize := 65536, overflow := .wrap } ∧ (blank [0x17, 0x01]).Runnable ∧
      ∃ t, step (blank [0x17, 0x01]) = .next t ∧ t.faulted = true :=
  ⟨by decide, ⟨by decide, by decide⟩, answers_next (p := State.faulted) (by decide)⟩

/-- Each of the four changes. -/
theorem witness_FlagsStatusAndSpHaveOneWriter :
    answers (exec (.cmpImm 0 0x00) running) (fun t => decide (t.zero ≠ running.zero)) = true ∧
      answers (exec (.addImm 5 0xFF) running) (fun t => decide (t.carry ≠ running.carry)) = true ∧
      answers (exec .hlt running) (fun t => decide (t.halt ≠ running.halt)) = true ∧
      answers (exec (.pop 0) running) (fun t => decide (t.sp ≠ running.sp)) = true := by
  decide

/-- Two states that differ in every storage bit, at a step that completes and at one that faults. -/
theorem witness_NoStepReadsOrWritesStorageBits :
    (AgreeButStorage running { running with f := 0xFFFC, st := 0xFFFE } ∧ ∃ t, step running = .next t) ∧
      AgreeButStorage (blank [0x16, 0x01]) { blank [0x16, 0x01] with f := 0xFFFC, st := 0xFFFE } ∧
        ∃ t, step (blank [0x16, 0x01]) = .next t :=
  ⟨⟨⟨rfl, fun g => by cases g <;> rfl, rfl, rfl, rfl, rfl, rfl, rfl, by decide, by decide, by decide⟩,
      answers_any (by decide)⟩,
    ⟨rfl, fun g => by cases g <;> rfl, rfl, rfl, rfl, rfl, rfl, rfl, by decide, by decide, by decide⟩,
    answers_any (by decide)⟩

/-- LHL, an ADD with r = 4, and a host write of H. -/
theorem witness_HlIsTheCompositeOfLAndH :
    answers (exec (.lhl 0x34 0x12) running) (fun t => decide (t.hl ≠ running.hl)) = true ∧
      answers (exec (.addImm 4 0x01) running) (fun t => decide (t.hl ≠ running.hl)) = true ∧
      ((running.perform 0 (.writeGpr 5 0x20)).map fun p => decide (p.2.hl ≠ running.hl)) = some true := by
  decide

theorem witness_MemoryReadsAndWritesOneByte :
    edge.cfg.memSize ≤ (0x1000#16).toNat ∧ ((0x0FFF#16).toNat < edge.cfg.memSize ∧ Memory.wf edge.mem) ∧
      running.cfg.memSize = 65536 := by
  decide

/-- The state after the PUSH itself meets the three equations. -/
theorem witness_PushThenPopMovesTheValue :
    Memory.wf (blank []).mem ∧ OperandIs (blank []) .pushImm .pushReg (.pushReg 5) 0x00 ∧
      ((blank []).cfg.overflow = .wrap ∨ (blank []).sp ≠ 0x0000#16) ∧
      ((blank []).sp - 1#16).toNat < (blank []).cfg.memSize :=
  ⟨by decide, .inr ⟨.H, rfl, rfl⟩, by decide, by decide⟩

/-- STR A,[0x0003] at 0 with A = 0xF0, the byte of HLT. -/
theorem witness_StoreIsSeenByTheNextFetch :
    let s : State := { blank [0x30, 0x03, 0x00] with a := 0xF0 }
    s.Runnable ∧ Memory.wf s.mem ∧ Fetchable s 4 ∧ instrAt s = .strAbs Gpr.A.index (s.pc + 3#16) ∧
      operandCount (s.gpr .A) = 0 :=
  ⟨⟨by decide, by decide⟩, by decide, ⟨by decide, by decide⟩, by decide, by decide⟩

/-- Equal and unequal. -/
theorem witness_JzAfterCmpBranchesOnInequality :
    OperandIs running (.cmpImm Gpr.H.index) (.cmpReg Gpr.H.index) (.cmpImm 5 0x01) 0x01 ∧
      OperandIs running (.cmpImm Gpr.H.index) (.cmpReg Gpr.H.index) (.cmpReg 5 0) 0x00 :=
  ⟨.inl rfl, .inr ⟨.A, rfl, rfl⟩⟩

theorem witness_AdcIsAddPlusTheCarry :
    running.carry = false ∧ State.carry { running with f := 0x0002 } = true := by decide

theorem witness_OnlyTheListedWriteChangesMemory :
    let s : State := { blank [0x38] with a := 0x99, h := 0x02 }
    s.Runnable ∧ Memory.wf s.mem ∧
      (∃ t, step s = .next t ∧ (!t.faulted && decide (t.byte 0x0200 ≠ s.byte 0x0200)) = true) ∧
      Access.write 0x0200 0x99 ∈ s.accesses ∧ Access.read 0x0000 ∈ s.accesses.dropLast :=
  ⟨⟨by decide, by decide⟩, by decide,
    answers_next (p := fun t => !t.faulted && decide (t.byte 0x0200 ≠ _)) (by decide), by decide, by decide⟩

/-- A run that is DONE, and one that faults. -/
theorem witness_RunEndsInOneWay :
    ((∃ t, (blank [0xF0]).run 1 = some (.done, t)) ∧ (blank [0xF0]).faulted = false) ∧
      (∃ r t, (blank [0x16, 0x01]).run 1 = some (.fault r, t)) ∧ (blank [0x16, 0x01]).faulted = false :=
  ⟨⟨⟨_, rfl⟩, by decide⟩, ⟨_, _, rfl⟩, by decide⟩

theorem witness_JumpToItselfNeverEnds :
    (blank [0x70]).faulted = false ∧ Fetchable (blank [0x70]) 3 ∧ instrAt (blank [0x70]) = .jmpAbs (blank [0x70]).pc :=
  ⟨by decide, ⟨by decide, by decide⟩, by decide⟩

/-- A load that wraps past 0xFFFF. -/
theorem witness_LoadPlacesItsBytes :
    Memory.wf running.mem ∧
      ∀ i < [0x11#8, 0x22#8].length, running.backed (rangeAddr 0xFFFF i) = true := by
  decide

theorem witness_FailedLoadIsAnErrorOnly :
    Memory.wf edge.mem ∧ 1 < [0x11#8, 0x22#8].length ∧ (∀ i < 1, edge.backed (rangeAddr 0x0FFF i) = true) ∧
      edge.cfg.memSize ≤ (rangeAddr 0x0FFF 1).toNat := by
  decide

/-- The last index and address in range, and the first out of range. -/
theorem witness_HostAccessReadsWhatItWrote :
    Memory.wf edge.mem ∧ 5 < 6 ∧ 3 < 4 ∧ (0x0FFF#16).toNat < edge.cfg.memSize ∧ 6 ≤ 6 ∧ 4 ≤ 4 ∧
      edge.cfg.memSize ≤ (0x1000#16).toNat := by
  decide

theorem witness_DumpsOnlyRead :
    (∀ i < 1, edge.backed (rangeAddr 0x0FFF i) = true) ∧ ∃ i < 2, edge.cfg.memSize ≤ (rangeAddr 0x0FFF i).toNat :=
  ⟨by decide, 1, by decide, by decide⟩

theorem witness_OnlyResetLeavesTheFaultedState :
    faulted.faulted = true ∧ Command.writeGpr 0 0x01 ≠ .reset ∧
      ∃ r t, faulted.perform 0 (.writeGpr 0 0x01) = some (r, t) :=
  ⟨by decide, by decide, _, _, rfl⟩

end Sys2Proof.Tests
end

/-! PROOFS. The invariant at reset (00_scope.md). -/

namespace Sys2Proof.Machine

@[simp] theorem State.resetWith_cfg (cfg : Config) : (State.resetWith cfg).cfg = cfg := rfl
@[simp] theorem State.resetWith_mem (cfg : Config) : (State.resetWith cfg).mem = [] := rfl
@[simp] theorem State.resetWith_faulted (cfg : Config) : (State.resetWith cfg).faulted = false := rfl
@[simp] theorem State.resetWith_record (cfg : Config) : (State.resetWith cfg).record = FaultRecord.clear := rfl

/-- The empty memory of R42 is in canonical form. -/
theorem Memory.wf_nil : Memory.wf [] := ⟨.nil, by simp⟩

/-- The reset state of a configuration in R9's range meets the invariant: its memory lists nothing and its latch is clear,
so the configuration is all there is to ask. -/
theorem State.resetWith_inv {cfg : Config} (h : cfg.Valid) : (State.resetWith cfg).Inv where
  config := h
  memoryForm := Memory.wf_nil
  memoryBacked := by simp
  latchClear := fun _ => rfl
  latchSet := by simp

end Sys2Proof.Machine

namespace Sys2Proof.Claims

open Sys2Proof Sys2Proof.Machine

/-- The configuration of `State.reset` (log 1) is in R9's range. -/
theorem standard_valid : Config.standard.Valid := by decide

/-- Settles O2: the general lemma at every valid configuration, and at the standard one for `State.reset`. -/
theorem resetMeetsInvariant : Obligations.ResetMeetsInvariant :=
  ⟨fun _ => State.resetWith_inv, State.resetWith_inv standard_valid, rfl⟩

end Sys2Proof.Claims

/-! PROOFS. The storage bits of F and S (10_state.md R34): replacing them in a state commutes with every operation. -/

namespace Sys2Proof.Machine

theorem setBit_setBit_same (w : Word) (n : Nat) (u v : Bool) (hn : n < 16) :
    setBit (setBit w n u) n v = setBit w n v := by
  refine BitVec.eq_of_getLsbD_eq fun i _ => ?_
  simp only [setBit_getLsbD _ _ _ _ hn]
  split <;> rfl

theorem setBit_comm (w : Word) {n m : Nat} (u v : Bool) (hn : n < 16) (hm : m < 16) (h : n ≠ m) :
    setBit (setBit w n u) m v = setBit (setBit w m v) n u := by
  refine BitVec.eq_of_getLsbD_eq fun i _ => ?_
  simp only [setBit_getLsbD _ _ _ _ hn, setBit_getLsbD _ _ _ _ hm]
  split
  · rw [if_neg (by omega)]
  · rfl

theorem setBit_getLsbD_self (w : Word) (n : Nat) (hn : n < 16) : setBit w n (w.getLsbD n) = w := by
  refine BitVec.eq_of_getLsbD_eq fun i _ => ?_
  rw [setBit_getLsbD _ _ _ _ hn]
  split
  · subst_vars; rfl
  · rfl

/-- A function commutes with a sequence where it commutes with what follows the first operation. -/
theorem bind_eq_map {α β γ : Type} {x : Except OutOfBounds α} {k : α → Except OutOfBounds β}
    {k' : α → Except OutOfBounds γ} {m : β → γ} (h : ∀ a, k' a = (k a).map m) : (x >>= k') = (x >>= k).map m := by
  cases x with
  | error e => rfl
  | ok a => exact h a

/-- The same where the first operation's own result is replaced, by `m`. -/
theorem map_bind_eq_map {α β : Type} {x : Except OutOfBounds α} {k : α → Except OutOfBounds β}
    {k' : α → Except OutOfBounds β} {m : α → α} {m' : β → β} (h : ∀ a, k' (m a) = (k a).map m') :
    (x.map m >>= k') = (x >>= k).map m' := by
  cases x with
  | error e => rfl
  | ok a => exact h a

/-- `s` with F[15:2] and S[15:1] taken from the words `f` and `st`; ZERO, CARRY and HALT stay. -/
def State.withStorage (f st : Word) (s : State) : State :=
  { s with f := setBit (setBit f 0 s.zero) 1 s.carry, st := setBit st 0 s.halt }

section
variable (f st : Word) (s : State)

/-! ### What is read -/

@[simp] theorem State.withStorage_cfg : (s.withStorage f st).cfg = s.cfg := rfl
@[simp] theorem State.withStorage_pc : (s.withStorage f st).pc = s.pc := rfl
@[simp] theorem State.withStorage_sp : (s.withStorage f st).sp = s.sp := rfl
@[simp] theorem State.withStorage_mem : (s.withStorage f st).mem = s.mem := rfl
@[simp] theorem State.withStorage_faulted : (s.withStorage f st).faulted = s.faulted := rfl
@[simp] theorem State.withStorage_record : (s.withStorage f st).record = s.record := rfl
@[simp] theorem State.withStorage_draws : (s.withStorage f st).draws = s.draws := rfl
@[simp] theorem State.withStorage_hl : (s.withStorage f st).hl = s.hl := rfl
@[simp] theorem State.withStorage_byte (a : Word) : (s.withStorage f st).byte a = s.byte a := rfl
@[simp] theorem State.withStorage_backed (a : Word) : (s.withStorage f st).backed a = s.backed a := rfl
@[simp] theorem State.withStorage_gpr (g : Gpr) : (s.withStorage f st).gpr g = s.gpr g := by cases g <;> rfl
@[simp] theorem State.withStorage_zero : (s.withStorage f st).zero = s.zero :=
  (setBit_other _ 1 0 _ (by decide) (by decide)).trans (setBit_same f 0 _ (by decide))
@[simp] theorem State.withStorage_carry : (s.withStorage f st).carry = s.carry := setBit_same _ 1 _ (by decide)
@[simp] theorem State.withStorage_halt : (s.withStorage f st).halt = s.halt := setBit_same st 0 _ (by decide)

@[simp] theorem State.withStorage_ea (addr : Address) : (s.withStorage f st).ea addr = s.ea addr := by
  cases addr <;> rfl

@[simp] theorem State.withStorage_readReg (r : RegIx) : (s.withStorage f st).readReg r = s.readReg r := by
  simp only [State.readReg, withStorage_gpr]

@[simp] theorem State.withStorage_operand (src : Source) : (s.withStorage f st).operand src = s.operand src := by
  cases src <;> simp [State.operand]

@[simp] theorem State.withStorage_memRead (a : Word) : (s.withStorage f st).memRead a = s.memRead a := rfl

@[simp] theorem State.withStorage_pushLoc : (s.withStorage f st).pushLoc = s.pushLoc := rfl

@[simp] theorem Instr.writes_withStorage (i : Instr) : Instr.writes i (s.withStorage f st) = Instr.writes i s := by
  cases i <;> rfl

/-! ### What is written -/

theorem State.withStorage_setGpr (g : Gpr) (v : Byte) :
    (s.withStorage f st).setGpr g v = (s.setGpr g v).withStorage f st := by cases g <;> rfl
theorem State.withStorage_setPc (v : Word) : (s.withStorage f st).setPc v = (s.setPc v).withStorage f st := rfl
theorem State.withStorage_setSp (v : Word) : (s.withStorage f st).setSp v = (s.setSp v).withStorage f st := rfl
theorem State.withStorage_setDraws (n : Nat) :
    (s.withStorage f st).setDraws n = (s.setDraws n).withStorage f st := rfl
theorem State.withStorage_setLatch (b : Bool) (r : FaultRecord) :
    (s.withStorage f st).setLatch b r = (s.setLatch b r).withStorage f st := rfl
theorem State.withStorage_setByte (a : Word) (v : Byte) :
    (s.withStorage f st).setByte a v = (s.setByte a v).withStorage f st := rfl

theorem State.withStorage_setZero (v : Bool) :
    (s.withStorage f st).setZero v = (s.setZero v).withStorage f st := by
  have hf : setBit (setBit (setBit f 0 s.zero) 1 s.carry) 0 v = setBit (setBit f 0 v) 1 s.carry := by
    rw [setBit_comm _ _ _ (by decide) (by decide) (by decide), setBit_setBit_same _ _ _ _ (by decide)]
  simp only [withStorage, setZero_zero, setZero_carry, setZero_halt]
  simp only [setZero, hf]

theorem State.withStorage_setCarry (v : Bool) :
    (s.withStorage f st).setCarry v = (s.setCarry v).withStorage f st := by
  simp only [withStorage, setCarry_zero, setCarry_carry, setCarry_halt]
  simp only [setCarry, setBit_setBit_same _ 1 _ _ (by decide)]

theorem State.withStorage_setHalt (v : Bool) :
    (s.withStorage f st).setHalt v = (s.setHalt v).withStorage f st := by
  simp only [withStorage, setHalt_zero, setHalt_carry, setHalt_halt]
  simp only [setHalt, setBit_setBit_same _ 0 _ _ (by decide)]

theorem State.withStorage_writeReg (r : RegIx) (v : Byte) :
    (s.withStorage f st).writeReg r v = (s.writeReg r v).map (withStorage f st) := by
  unfold State.writeReg
  cases Gpr.ofIndex r with
  | none => rfl
  | some g => exact congrArg Except.ok (withStorage_setGpr f st s g v)

theorem State.withStorage_memWrite (a : Word) (v : Byte) :
    (s.withStorage f st).memWrite a v = (s.memWrite a v).map (withStorage f st) := by
  cases ha : s.backed a with
  | true => rw [memWrite_backed v ha]; exact memWrite_backed v ha
  | false => rw [memWrite_unbacked v ha]; exact memWrite_unbacked v ha

/-! ### The effect of an instruction -/

theorem State.withStorage_mov (r : RegIx) (src : Source) :
    (s.withStorage f st).mov r src = (s.mov r src).map (withStorage f st) := by
  simp only [State.mov, withStorage_operand]
  exact bind_eq_map fun v => withStorage_writeReg ..

theorem State.withStorage_ldr (r : RegIx) (addr : Address) :
    (s.withStorage f st).ldr r addr = (s.ldr r addr).map (withStorage f st) := by
  simp only [State.ldr, withStorage_memRead, withStorage_ea]
  exact bind_eq_map fun v => withStorage_writeReg ..

theorem State.withStorage_str (r : RegIx) (addr : Address) :
    (s.withStorage f st).str r addr = (s.str r addr).map (withStorage f st) := by
  simp only [State.str, withStorage_readReg, withStorage_ea]
  exact bind_eq_map fun v => withStorage_memWrite ..

theorem State.withStorage_push (src : Source) :
    (s.withStorage f st).push src = (s.push src).map (withStorage f st) := by
  simp only [State.push, withStorage_operand, withStorage_cfg, withStorage_sp]
  exact bind_eq_map fun v => bind_eq_map fun sp => withStorage_memWrite f st (s.setSp sp) sp v

theorem State.withStorage_pop (r : RegIx) :
    effect (.pop r) (s.withStorage f st) = (effect (.pop r) s).map (withStorage f st) := by
  simp only [effect, withStorage_memRead, withStorage_cfg, withStorage_sp, withStorage_writeReg]
  exact bind_eq_map fun v => map_bind_eq_map fun t => bind_eq_map fun sp => rfl

theorem State.withStorage_addWith (r : RegIx) (src : Source) (c : Bool) :
    (s.withStorage f st).addWith r src c = (s.addWith r src c).map (withStorage f st) := by
  simp only [State.addWith, withStorage_operand, withStorage_readReg, withStorage_writeReg]
  exact bind_eq_map fun v => bind_eq_map fun d => map_bind_eq_map fun t =>
    congrArg Except.ok (withStorage_setCarry ..)

theorem State.withStorage_compare (r : RegIx) (src : Source) :
    (s.withStorage f st).compare r src = (s.compare r src).map (withStorage f st) := by
  simp only [State.compare, withStorage_operand, withStorage_readReg]
  exact bind_eq_map fun v => bind_eq_map fun d => congrArg Except.ok (withStorage_setZero ..)

theorem State.withStorage_combine (r : RegIx) (src : Source) (op : Byte → Byte → Byte) :
    (s.withStorage f st).combine r src op = (s.combine r src op).map (withStorage f st) := by
  simp only [State.combine, withStorage_operand, withStorage_readReg]
  exact bind_eq_map fun v => bind_eq_map fun d => withStorage_writeReg ..

theorem State.withStorage_jz (addr : Address) :
    (s.withStorage f st).jz addr = (s.jz addr).withStorage f st := by
  simp only [State.jz, withStorage_zero, withStorage_ea, withStorage_setPc]
  split <;> rfl

/-- No instruction's effect reads or writes the storage bits. -/
theorem effect_withStorage (i : Instr) :
    effect i (s.withStorage f st) = (effect i s).map (State.withStorage f st) := by
  cases i with
  | nop | lhl | jmpAbs | jmpHl => rfl
  | hlt => exact congrArg Except.ok (s.withStorage_setHalt f st true)
  | movImm | movReg => exact s.withStorage_mov ..
  | ldrAbs | ldrHl => exact s.withStorage_ldr ..
  | strAbs | strHl => exact s.withStorage_str ..
  | pushImm | pushReg => exact s.withStorage_push ..
  | pop r => exact s.withStorage_pop ..
  | jzAbs | jzHl => exact congrArg Except.ok (s.withStorage_jz ..)
  | addImm | addReg => exact s.withStorage_addWith ..
  | adcImm | adcReg =>
    simp only [effect, State.withStorage_carry]
    exact s.withStorage_addWith ..
  | cmpImm | cmpReg => exact s.withStorage_compare ..
  | subImm | subReg | nandImm | nandReg | norImm | norReg => exact s.withStorage_combine ..

/-! ### Taking the fault -/

theorem State.withStorage_leaveUnspecified (loc : Loc) :
    (s.withStorage f st).leaveUnspecified loc = (s.leaveUnspecified loc).withStorage f st := by
  cases loc with
  | pc | sp => rfl
  | zero => exact withStorage_setZero f st (s.setDraws (s.draws + 1)) _
  | carry => exact withStorage_setCarry f st (s.setDraws (s.draws + 1)) _
  | halt => exact withStorage_setHalt f st (s.setDraws (s.draws + 1)) _
  | gpr r =>
    simp only [State.leaveUnspecified]
    cases Gpr.ofIndex r with
    | none => rfl
    | some g => exact withStorage_setGpr f st (s.setDraws (s.draws + 1)) g _
  | mem a => simp only [State.leaveUnspecified, apply_ite (withStorage f st)]; rfl

theorem State.withStorage_takeFault (locs : List Loc) (e : OutOfBounds) (p : Word) :
    (s.withStorage f st).takeFault locs e p = (s.takeFault locs e p).withStorage f st := by
  have fold : locs.foldl leaveUnspecified (s.withStorage f st) =
      (locs.foldl leaveUnspecified s).withStorage f st := by
    induction locs generalizing s with
    | nil => rfl
    | cons loc locs ih => rw [List.foldl_cons, withStorage_leaveUnspecified, ih, List.foldl_cons]
  rw [State.takeFault, fold, withStorage_setLatch, State.takeFault]

/-! ### The step -/

theorem exec_withStorage (i : Instr) {t : State} (h : exec i s = .next t) :
    exec i (s.withStorage f st) = .next (t.withStorage f st) := by
  rw [exec_eq_conclude, effect_withStorage]
  rcases exec_next h with he | ⟨e, he, rfl⟩ <;> rw [he]
  · rfl
  · rw [Except.map, conclude_error, Instr.writes_withStorage, State.withStorage_takeFault]
    rfl

theorem State.fetchByte_withStorage :
    (s.withStorage f st).fetchByte = s.fetchByte.map (Prod.map id (withStorage f st)) := by
  simp only [State.fetchByte, withStorage_memRead, withStorage_pc, withStorage_cfg]
  exact bind_eq_map fun b => bind_eq_map fun pc => rfl

theorem State.fetchBytes_withStorage (n : Nat) :
    (s.withStorage f st).fetchBytes n = ((s.fetchBytes n).1, (s.fetchBytes n).2.map (withStorage f st)) := by
  induction n generalizing s with
  | zero => rfl
  | succ n ih =>
    simp only [State.fetchBytes, fetchByte_withStorage]
    cases s.fetchByte with
    | error e => rfl
    | ok p => simp only [Except.map, Prod.map, id, ih]

theorem State.faultInFetch_withStorage (seen : List Byte) (e : OutOfBounds) :
    (s.withStorage f st).faultInFetch seen e = (s.faultInFetch seen e).withStorage f st := by
  cases seen with
  | nil => exact withStorage_takeFault ..
  | cons op operands =>
    simp only [State.faultInFetch, withStorage_draws, Instr.writes_withStorage, withStorage_setDraws,
      withStorage_takeFault, withStorage_pc]

theorem State.execute1_withStorage {t : State} (h : s.execute1 = .next t) :
    (s.withStorage f st).execute1 = .next (t.withStorage f st) := by
  simp only [State.execute1, fetchByte_withStorage] at h ⊢
  cases hb : s.fetchByte with
  | error e =>
    simp only [hb] at h
    cases h
    exact congrArg Host.Outcome.next (s.faultInFetch_withStorage f st s.seenByte e)
  | ok p =>
    simp only [hb] at h
    simp only [Except.map, Prod.map, id, fetchBytes_withStorage]
    rcases hf : State.fetchBytes (operandCount p.1) p.2 with ⟨operands, (e | u)⟩ <;> simp only [hf] at h
    · cases h
      exact congrArg Host.Outcome.next (s.faultInFetch_withStorage ..)
    · exact exec_withStorage f st u _ h

/-- No step reads the storage bits: with others in their place it answers the same but for them. -/
theorem step_withStorage {t : State} (h : step s = .next t) :
    step (s.withStorage f st) = .next (t.withStorage f st) := by
  obtain ⟨hf, ⟨hh, rfl⟩ | ⟨hh, h⟩⟩ := step_next h
  · exact step_halted (by simpa using hf) (by simpa using hh)
  · rw [step_runnable ⟨by simpa using hf, by simpa using hh⟩]
    exact s.execute1_withStorage f st h

end

/-! ### No step writes the storage bits -/

/-- An instruction, completing or faulting, leaves the storage bits and every location its rule does not write. -/
theorem exec_frame {i : Instr} {s t : State} (h : exec i s = .next t) :
    s.SameStorage t ∧ ∀ loc, loc ∉ Instr.writes i s → Loc.Same s t loc := by
  rcases exec_next h with he | ⟨e, -, rfl⟩
  · exact ⟨(effect_frame he).storage, (effect_frame he).others⟩
  · exact ⟨s.takeFault_storage _ e _, fun loc hl => s.takeFault_same _ e _ fun hm => hl (List.mem_filter.mp hm).1⟩

theorem State.setPc_storage (s : State) (p : Word) : s.SameStorage (s.setPc p) :=
  ⟨rfl, fun _ _ => rfl, fun _ _ => rfl⟩

theorem step_storage {s t : State} (h : step s = .next t) : s.SameStorage t := by
  obtain ⟨-, ⟨-, rfl⟩ | ⟨-, h⟩⟩ := step_next h
  · exact .refl t
  · rcases s.execute1_cases with ⟨e, -, he⟩ | ⟨op, operands, e, -, -, -, he⟩ | ⟨op, operands, u, -, -, hu, he⟩ <;>
      rw [he] at h
    · cases h
      exact s.faultInFetch_storage ..
    · cases h
      exact s.faultInFetch_storage ..
    · obtain rfl := State.fetchBytes_next hu
      exact (s.setPc_storage _).trans (exec_frame h).1

end Sys2Proof.Machine

namespace Sys2Proof.Claims

open Sys2Proof Sys2Proof.Machine

theorem agreeButStorage_withStorage (f st : Word) (s : State) : AgreeButStorage s (s.withStorage f st) := by
  simp [AgreeButStorage]

/-- States that agree but for the storage bits are one state with two contents of those bits. -/
theorem AgreeButStorage.eq_withStorage {s s' : State} (h : AgreeButStorage s s') :
    s' = s.withStorage s'.f s'.st := by
  obtain ⟨hcfg, hgpr, hpc, hsp, hmem, hfaulted, hrecord, hdraws, hzero, hcarry, hhalt⟩ := h
  have hf : setBit (setBit s'.f 0 s.zero) 1 s.carry = s'.f := by
    rw [← hzero, ← hcarry, State.zero, setBit_getLsbD_self _ _ (by decide)]
    exact setBit_getLsbD_self _ _ (by decide)
  have hst : setBit s'.st 0 s.halt = s'.st := by
    rw [← hhalt]
    exact setBit_getLsbD_self _ _ (by decide)
  cases s' with
  | mk cfg a b c d l h pc sp f st mem faulted record draws =>
    simp only [State.withStorage, State.mk.injEq]
    exact ⟨hcfg, hgpr .A, hgpr .B, hgpr .C, hgpr .D, hgpr .L, hgpr .H, hpc, hsp, hf.symm, hst.symm, hmem, hfaulted,
      hrecord, hdraws⟩

/-- Settles O45: the second state is the first with other storage bits, and a step commutes with replacing them. -/
theorem noStepReadsOrWritesStorageBits : Obligations.NoStepReadsOrWritesStorageBits := by
  intro s s' t hagree hstep
  have hstep' : step s' = .next (t.withStorage s'.f s'.st) := by
    have := step_withStorage s'.f s'.st s hstep
    rwa [← hagree.eq_withStorage] at this
  exact ⟨step_storage hstep, _, hstep', step_storage hstep', rfl, rfl, fun _ => agreeButStorage_withStorage ..⟩

end Sys2Proof.Claims

/-! PROOFS. Where a fetch fails (10_state.md R28, R29), and PC after a step that completes (R27). -/

namespace Sys2Proof.Machine

open Sys2Proof.Claims

theorem Config.increment_overflow {c : Config} {w : Word} (hf : c.overflow = .fault) (hw : w = 0xFFFF#16) :
    Config.increment c w = .error ⟨.mem, 0x10000⟩ := if_pos ⟨hf, hw⟩

theorem Config.decrement_overflow {c : Config} {w : Word} (hf : c.overflow = .fault) (hw : w = 0x0000#16) :
    Config.decrement c w = .error ⟨.mem, -1⟩ := if_pos ⟨hf, hw⟩

/-! ### A fetch that fails -/

/-- The fetch of `n` bytes fails where byte `k` does, the `k` bytes before it being fetched. -/
theorem State.fetchBytes_fails {s : State} {k n : Nat} {e : OutOfBounds} (hk : k < n) (h : Fetchable s k)
    (he : (s.setPc (s.pc + BitVec.ofNat 16 k)).fetchByte = .error e) : (s.fetchBytes n).2 = .error e := by
  induction k generalizing s n with
  | zero =>
    obtain ⟨m, rfl⟩ : ∃ m, n = m + 1 := ⟨n - 1, by omega⟩
    have he : s.fetchByte = .error e := by simpa using he
    simp only [State.fetchBytes, he]
  | succ k ih =>
    obtain ⟨m, rfl⟩ : ∃ m, n = m + 1 := ⟨n - 1, by omega⟩
    obtain ⟨hb, ho, hrest⟩ := h.succ
    simp only [State.fetchBytes, State.fetchByte_ok hb ho]
    exact ih (by omega) hrest (by rwa [State.setPc_setPc, State.setPc_pc, add_ofNat_succ])

/-- `Execute1()` enters the fault state where the fetch of byte `k` of the instruction fails, the `k` bytes before it being
fetched: the record is that error's, and fault_pc is the address of the opcode byte. -/
theorem State.execute1_fetch_fails {s : State} {k : Nat} {e : OutOfBounds} (hk : k ≤ operandCount (s.byte s.pc))
    (h : Fetchable s k) (he : (s.setPc (s.pc + BitVec.ofNat 16 k)).fetchByte = .error e) :
    ∃ seen, s.execute1 = .next (s.faultInFetch seen e) := by
  cases k with
  | zero =>
    have he : s.fetchByte = .error e := by simpa using he
    exact ⟨s.seenByte, by simp only [State.execute1, he]⟩
  | succ k =>
    obtain ⟨hb, ho, hrest⟩ := h.succ
    have hf : ((s.setPc (s.pc + 1#16)).fetchBytes (operandCount (s.byte s.pc))).2 = .error e :=
      fetchBytes_fails (by omega) hrest (by rwa [State.setPc_setPc, State.setPc_pc, add_ofNat_succ])
    refine ⟨s.byte s.pc :: ((s.setPc (s.pc + 1#16)).fetchBytes (operandCount (s.byte s.pc))).1, ?_⟩
    simp only [State.execute1, State.fetchByte_ok hb ho]
    rw [← Prod.mk.eta (p := State.fetchBytes _ _), hf]

theorem State.fetchByte_unbacked {s : State} (h : s.backed s.pc = false) : s.fetchByte = .error (oobMem s.pc) := by
  simp only [State.fetchByte, State.memRead_unbacked h, error_bind]

theorem State.fetchByte_overflow {s : State} (hb : s.backed s.pc = true) (hf : s.cfg.overflow = .fault)
    (hp : s.pc = 0xFFFF#16) : s.fetchByte = .error ⟨.mem, 0x10000⟩ := by
  simp only [State.fetchByte, State.memRead_backed hb, Config.increment_overflow hf hp, ok_bind, error_bind]

theorem State.backed_eq_false {s : State} {a : Word} (h : s.cfg.memSize ≤ a.toNat) : s.backed a = false := by
  simpa [State.backed] using h

/-- A byte that is fetched is backed, and PC did not leave 0xFFFF where that faults. -/
theorem State.fetchByte_fetched {s t : State} {b : Byte} (h : s.fetchByte = .ok (b, t)) :
    s.backed s.pc = true ∧ (s.cfg.overflow = .wrap ∨ s.pc ≠ 0xFFFF#16) ∧ t = s.setPc (s.pc + 1#16) := by
  have hb : s.backed s.pc = true := by
    by_contra hb
    simp [fetchByte_unbacked (Bool.eq_false_iff.mpr hb)] at h
  refine ⟨hb, ?_, (fetchByte_next h).2⟩
  cases ho : s.cfg.overflow with
  | wrap => exact .inl rfl
  | fault =>
    refine .inr fun hp => ?_
    simp [fetchByte_overflow hb ho hp] at h

/-- The converse of `Fetchable.succ`. -/
theorem Fetchable.cons {s : State} {n : Nat} (hb : s.backed s.pc = true)
    (ho : s.cfg.overflow = .wrap ∨ s.pc ≠ 0xFFFF#16) (h : Fetchable (s.setPc (s.pc + 1#16)) n) :
    Fetchable s (n + 1) := by
  obtain ⟨hrest, hend⟩ := h
  refine ⟨fun k hk => ?_, ?_⟩
  · cases k with
    | zero => simpa using hb
    | succ k =>
      rw [← add_ofNat_succ]
      exact hrest k (by omega)
  · rcases ho with hw | hp
    · exact .inl hw
    · have hnext : (s.pc + 1#16).toNat = s.pc.toNat + 1 := by bv_omega
      exact hend.imp id fun hend => by rw [State.setPc_pc, hnext] at hend; omega

/-- The bytes that a successful fetch read can be fetched: the converse of `State.fetchBytes_ok`. -/
theorem State.fetchable_of_fetchBytes {n : Nat} {s t : State} {bs : List Byte} (h : s.fetchBytes n = (bs, .ok t)) :
    Fetchable s n := by
  induction n generalizing s bs with
  | zero => exact ⟨by simp, .inr s.pc.isLt.le_pred⟩
  | succ n ih =>
    simp only [State.fetchBytes] at h
    split at h
    next => cases h
    next b u hu =>
      obtain ⟨hb, ho, rfl⟩ := fetchByte_fetched hu
      exact .cons hb ho (ih (Prod.ext rfl (Prod.ext_iff.mp h).2))

/-- `Execute1()` said by where it ends: in the fault state of a fetch, or past the bytes of the instruction at PC, which it
runs there. -/
theorem State.execute1_fault_or_exec (s : State) :
    (∃ seen e, s.execute1 = .next (s.faultInFetch seen e)) ∨
      Fetchable s (operandCount (s.byte s.pc) + 1) ∧
        s.execute1 = exec (instrAt s) (s.setPc (s.pc + BitVec.ofNat 16 (operandCount (s.byte s.pc) + 1))) := by
  rcases s.execute1_cases with ⟨e, -, h⟩ | ⟨op, operands, e, -, -, -, h⟩ | ⟨op, operands, u, hb, rfl, hu, -⟩
  · exact .inl ⟨_, e, h⟩
  · exact .inl ⟨_, e, h⟩
  · rcases hf : s.fetchByte with e | p
    · exact .inl ⟨s.seenByte, e, by simp only [State.execute1, hf]⟩
    · obtain ⟨-, ho, -⟩ := fetchByte_fetched hf
      have h := Fetchable.cons hb ho (fetchable_of_fetchBytes hu)
      exact .inr ⟨h, State.execute1_fetchable h⟩

/-! ### PC after an instruction -/

/-- PC after an instruction that completes, from the PC past its bytes: only JMP and JZ set it (10_state.md R27). -/
def nextPc (i : Instr) (s : State) : Word :=
  match i with
  | .jmpAbs a => a
  | .jmpHl => s.hl
  | .jzAbs a => if s.zero then s.pc else a
  | .jzHl => if s.zero then s.pc else s.hl
  | _ => s.pc

theorem State.jz_pc (s : State) (addr : Address) : (s.jz addr).pc = if s.zero then s.pc else s.ea addr := by
  unfold State.jz
  split <;> rfl

theorem effect_pc {i : Instr} {s t : State} (h : effect i s = .ok t) : t.pc = nextPc i s := by
  cases i with
  | nop | hlt | lhl | jmpAbs | jmpHl => cases h; rfl
  | jzAbs | jzHl => cases h; exact s.jz_pc _
  | movImm | movReg => obtain ⟨g, v, -, -, rfl⟩ := State.mov_ok h; exact s.setGpr_pc g v
  | ldrAbs | ldrHl => obtain ⟨g, -, -, rfl⟩ := State.ldr_ok h; exact s.setGpr_pc g _
  | strAbs | strHl => obtain ⟨g, -, -, rfl⟩ := State.str_ok h; rfl
  | pushImm | pushReg => obtain ⟨v, -, -, -, rfl⟩ := State.push_ok h; rfl
  | pop r => obtain ⟨g, -, -, rfl⟩ := pop_ok h; exact s.setGpr_pc g _
  | addImm | addReg | adcImm | adcReg => obtain ⟨g, v, -, -, rfl⟩ := State.addWith_ok h; exact s.setGpr_pc g _
  | cmpImm | cmpReg => obtain ⟨g, v, -, -, rfl⟩ := State.compare_ok h; rfl
  | subImm | subReg | nandImm | nandReg | norImm | norReg =>
    obtain ⟨g, v, -, -, rfl⟩ := State.combine_ok h; exact s.setGpr_pc g _

/-- A step that completes ran the instruction at PC, whose effect started past its bytes. -/
theorem step_completes {s t : State} (hrun : s.Runnable) (h : step s = .next t) (ht : t.faulted = false) :
    Fetchable s (operandCount (s.byte s.pc) + 1) ∧
      effect (instrAt s) (s.setPc (s.pc + BitVec.ofNat 16 (operandCount (s.byte s.pc) + 1))) = .ok t := by
  rw [step_runnable hrun] at h
  rcases s.execute1_fault_or_exec with ⟨seen, e, he⟩ | ⟨hf, he⟩ <;> rw [he] at h
  · cases h
    simp [(s.faultInFetch_faulted seen e).1] at ht
  · rcases exec_next h with heff | ⟨e, -, rfl⟩
    · exact ⟨hf, heff⟩
    · simp at ht

end Sys2Proof.Machine

namespace Sys2Proof.Claims

open Sys2Proof Sys2Proof.Machine

theorem faultState_faultInFetch (s : State) (seen : List Byte) (e : OutOfBounds) :
    FaultState (s.faultInFetch seen e) e s.pc := by
  obtain ⟨hf, hr⟩ := s.faultInFetch_faulted seen e
  simp [FaultState, hf, hr]

/-- Settles O15: no byte is seen, so the fault state is the old one but for PC, the latch and the count of free values. -/
theorem opcodeFetchOutOfRangeFaults : Obligations.OpcodeFetchOutOfRangeFaults := by
  intro s hrun hpc
  have hb := State.backed_eq_false hpc
  have hstep : step s = .next (s.faultInFetch [] (oobMem s.pc)) := by
    rw [step_runnable hrun]
    simp [State.execute1, State.fetchByte_unbacked hb, State.seenByte, hb]
  exact ⟨_, hstep, faultState_faultInFetch .., fun g => by cases g <;> rfl, rfl, rfl, rfl, fun _ => rfl⟩

/-- Settles O17: the bytes before address 0xFFFF are fetched, and the fetch at 0xFFFF reads its byte and fails in the
advance. -/
theorem pcOverflowFaultsWhereConfigured : Obligations.PcOverflowFaultsWhereConfigured := by
  intro s k hrun hfault hk hend hb
  have hlast : s.pc + BitVec.ofNat 16 k = 0xFFFF#16 := by
    apply BitVec.eq_of_toNat_eq
    rw [BitVec.toNat_add, BitVec.toNat_ofNat]
    simp; omega
  have he : (s.setPc (s.pc + BitVec.ofNat 16 k)).fetchByte = .error ⟨.mem, 0x10000⟩ :=
    State.fetchByte_overflow (hb k le_rfl) hfault hlast
  obtain ⟨seen, hex⟩ := State.execute1_fetch_fails hk ⟨fun j hj => hb j hj.le, .inr hend.le⟩ he
  exact ⟨_, (step_runnable hrun).trans hex, faultState_faultInFetch ..⟩

/-- Settles O20: the effect of a completing step starts past the instruction's bytes, and `effect_pc` says what it does to
PC. -/
theorem pcAdvancesByTheBytesConsumed : Obligations.PcAdvancesByTheBytesConsumed := by
  intro s t hrun hstep ht
  have hpc := effect_pc (step_completes hrun hstep ht).2
  rw [Nat.add_comm 1]
  cases hi : instrAt s <;> rw [hi] at hpc <;> exact hpc

end Sys2Proof.Claims

/-! PROOFS. The faults of PUSH and POP at the ends of SP (10_state.md R30), who writes which register (R24, R30 to R36), the
value of HL (R24), and the reset table (R42). -/

namespace Sys2Proof.Machine

/-! ### PUSH and POP -/

@[simp] theorem State.operand_imm (s : State) (v : Byte) : s.operand (.imm v) = .ok v := rfl
@[simp] theorem State.operand_reg (s : State) (k : Gpr) : s.operand (.reg k.index) = .ok (s.gpr k) := s.readReg_index k

/-- PUSH where the decrement of SP faults. -/
theorem State.push_decrement_error {s : State} {src : Source} {v : Byte} {e : OutOfBounds} (hv : s.operand src = .ok v)
    (hd : Config.decrement s.cfg s.sp = .error e) : s.push src = .error e := by
  simp only [State.push, hv, hd, ok_bind, error_bind]

/-- POP of an existing register where the byte at SP is backed and the increment of SP faults. -/
theorem effect_pop_increment_error {s : State} (g : Gpr) {e : OutOfBounds} (hb : s.backed s.sp = true)
    (hi : Config.increment s.cfg s.sp = .error e) : effect (.pop g.index) s = .error e := by
  simp only [effect, State.memRead_backed hb, State.writeReg_index, State.setGpr_sp, hi, ok_bind, error_bind]

/-! ### The instructions that write a location -/

/-- A PUSH stores to the byte at the decremented SP alone. -/
@[simp] theorem State.mem_pushLoc {s : State} {loc : Loc} :
    loc ∈ s.pushLoc ↔ ∃ sp, Config.decrement s.cfg s.sp = .ok sp ∧ loc = .mem sp := by
  unfold State.pushLoc
  cases Config.decrement s.cfg s.sp <;> simp

theorem Instr.of_writes_zero {i : Instr} {s : State} (h : Loc.zero ∈ Instr.writes i s) :
    (∃ r v, i = .cmpImm r v) ∨ ∃ r k, i = .cmpReg r k := by
  cases i <;> simp [Instr.writes] at h ⊢

theorem Instr.of_writes_carry {i : Instr} {s : State} (h : Loc.carry ∈ Instr.writes i s) :
    (∃ r v, i = .addImm r v) ∨ (∃ r k, i = .addReg r k) ∨ (∃ r v, i = .adcImm r v) ∨ ∃ r k, i = .adcReg r k := by
  cases i <;> simp [Instr.writes] at h ⊢

theorem Instr.of_writes_halt {i : Instr} {s : State} (h : Loc.halt ∈ Instr.writes i s) : i = .hlt := by
  cases i <;> simp [Instr.writes] at h ⊢

theorem Instr.of_writes_sp {i : Instr} {s : State} (h : Loc.sp ∈ Instr.writes i s) :
    (∃ v, i = .pushImm v) ∨ (∃ r, i = .pushReg r) ∨ ∃ r, i = .pop r := by
  cases i <;> simp [Instr.writes] at h ⊢

open Sys2Proof.Claims in
theorem Instr.of_writes_gpr {i : Instr} {s : State} {r : RegIx} (h : Loc.gpr r ∈ Instr.writes i s) :
    (∃ lo hi, i = .lhl lo hi) ∨ ResultOnlyIn r i ∨ i = .pop r ∨ (∃ v, i = .addImm r v) ∨ (∃ k, i = .addReg r k) ∨
      (∃ v, i = .adcImm r v) ∨ ∃ k, i = .adcReg r k := by
  cases i <;> simp [Instr.writes, ResultOnlyIn] at h ⊢ <;> exact h.symm

/-! ### HL -/

/-- A change of HL is a change of L or of H. -/
theorem State.gpr_ne_of_hl_ne {s t : State} (h : t.hl ≠ s.hl) : t.gpr .L ≠ s.gpr .L ∨ t.gpr .H ≠ s.gpr .H := by
  by_contra hlh
  simp only [not_or, not_not] at hlh
  exact h (congrArg₂ wordOfBytes hlh.1 hlh.2)

theorem State.hl_toNat (s : State) : s.hl.toNat = (s.gpr .L).toNat + 256 * (s.gpr .H).toNat :=
  wordOfBytes_toNat s.l s.h

theorem State.load_gpr {s t : State} {start : Word} {bytes : List Byte} {answer : Except OutOfBounds Unit}
    (h : s.load start bytes = (answer, t)) (g : Gpr) : t.gpr g = s.gpr g := by
  unfold State.load at h
  split at h <;> cases h
  · exact (s.loadPartly_frame start bytes).2.1 g
  · exact (s.placeBytes_frame start bytes).2.1 g

theorem State.setSpr_gpr (s : State) (r : Spr) (v : Word) (g : Gpr) : (s.setSpr r v).gpr g = s.gpr g := by
  cases r <;> cases g <;> rfl

theorem Gpr.ofHostIndex_eq_some {i : Nat} {g : Gpr} (h : Gpr.ofHostIndex i = some g) : i = g.index.toNat := by
  unfold Gpr.ofHostIndex at h
  split at h <;> cases h <;> rfl

/-- A command that changes a general register is a RESET, a STEP, a RUN or a write of that register. -/
theorem State.perform_gpr {bound : Nat} {c : Command} {s t : State} {r : Reply} {g : Gpr}
    (h : s.perform bound c = some (r, t)) (hg : t.gpr g ≠ s.gpr g) :
    c = .reset ∨ c = .step ∨ c = .run ∨ ∃ v, c = .writeGpr g.index.toNat v := by
  cases c with
  | reset | step | run => simp
  | writeGpr i v =>
    refine .inr (.inr (.inr ⟨v, ?_⟩))
    simp only [State.perform] at h
    split at h <;> cases h
    next k hk =>
      have : g = k := by
        by_contra hne
        exact hg (s.setGpr_gpr_other v hne)
      rw [this, Gpr.ofHostIndex_eq_some hk]
    next => exact absurd rfl hg
  | writeSpr i v =>
    simp only [State.perform] at h
    split at h <;> cases h
    · exact absurd (s.setSpr_gpr _ v g) hg
    · exact absurd rfl hg
  | writeMem a v =>
    simp only [State.perform] at h
    split at h <;> cases h
    · exact absurd (s.setByte_gpr a v g) hg
    · exact absurd rfl hg
  | load start bytes =>
    simp only [State.perform] at h
    split at h <;> cases h <;> exact absurd (State.load_gpr ‹_› g) hg
  | readGpr | readSpr | readMem | dump =>
    simp only [State.perform] at h
    split at h <;> cases h <;> exact absurd rfl hg
  | dumpState =>
    cases h
    exact absurd rfl hg

/-! ### Reset -/

@[simp] theorem State.resetWith_gpr (cfg : Config) (g : Gpr) : (State.resetWith cfg).gpr g = 0#8 := by cases g <;> rfl
@[simp] theorem State.resetWith_pc (cfg : Config) : (State.resetWith cfg).pc = 0#16 := rfl
@[simp] theorem State.resetWith_sp (cfg : Config) : (State.resetWith cfg).sp = 0#16 := rfl
@[simp] theorem State.resetWith_f (cfg : Config) : (State.resetWith cfg).f = 0#16 := rfl
@[simp] theorem State.resetWith_st (cfg : Config) : (State.resetWith cfg).st = 0#16 := rfl

/-- Nothing is listed at reset, so every byte is the unlisted one. -/
@[simp] theorem State.resetWith_byte (cfg : Config) (a : Word) : (State.resetWith cfg).byte a = Memory.unlisted := rfl

end Sys2Proof.Machine

namespace Sys2Proof.Claims

open Sys2Proof Sys2Proof.Machine

/-- An instruction whose effect raises OutOfBounds enters the fault state at its own address and leaves memory (log 6). -/
theorem exec_of_effect_error {i : Instr} {s : State} {e : OutOfBounds} (h : effect i s = .error e) :
    ∃ t, exec i s = .next t ∧ FaultState t e (startOf i s) ∧ KeepsMemory s t := by
  rw [exec_eq_conclude, h]
  exact ⟨_, rfl, ⟨rfl, rfl, rfl, rfl⟩, fun a => s.takeFault_same (loc := .mem a) _ e _ (by simp [Loc.notMemory])⟩

/-- Where its operand exists, PUSH faults if the decrement of SP does. -/
theorem OperandIs.effect_push_error {s : State} {i : Instr} {v : Byte} {e : OutOfBounds}
    (h : OperandIs s .pushImm .pushReg i v) (hd : Config.decrement s.cfg s.sp = .error e) : effect i s = .error e := by
  rcases h with rfl | ⟨k, rfl, rfl⟩
  · exact State.push_decrement_error (s.operand_imm v) hd
  · exact State.push_decrement_error (s.operand_reg k) hd

/-- Settles O41: the decrement or increment of SP is what fails, and a fault of a fetched instruction leaves memory. -/
theorem spOverflowFaultsWhereConfigured : Obligations.SpOverflowFaultsWhereConfigured := by
  intro s i v g hfault
  constructor
  · intro hi hsp
    exact exec_of_effect_error (hi.effect_push_error (Config.decrement_overflow hfault hsp))
  · intro hsp hb
    exact exec_of_effect_error (effect_pop_increment_error g hb (Config.increment_overflow hfault hsp))

/-- A location that an instruction changes is one its rule writes. -/
theorem mem_writes_of_changed {i : Instr} {s t : State} {loc : Loc} (h : exec i s = .next t) (hc : ¬ Loc.Same s t loc) :
    loc ∈ Instr.writes i s := by
  by_contra hl
  exact hc ((exec_frame h).2 loc hl)

/-- Settles O44: what changes is written, and each of the four is written by its own instructions alone. -/
theorem flagsStatusAndSpHaveOneWriter : Obligations.FlagsStatusAndSpHaveOneWriter := by
  intro i s t h
  exact ⟨fun hz => Instr.of_writes_zero (mem_writes_of_changed (loc := .zero) h hz),
    fun hc => Instr.of_writes_carry (mem_writes_of_changed (loc := .carry) h hc),
    fun hh => Instr.of_writes_halt (mem_writes_of_changed (loc := .halt) h hh),
    fun hs => Instr.of_writes_sp (mem_writes_of_changed (loc := .sp) h hs)⟩

theorem writes_gpr_of_changed {i : Instr} {s t : State} {g : Gpr} (h : exec i s = .next t) (hg : t.gpr g ≠ s.gpr g) :
    Loc.gpr g.index ∈ Instr.writes i s :=
  mem_writes_of_changed h fun hs => hg (hs g rfl)

/-- Settles O46: a change of HL is one of L or H, whose indices are 4 and 5. -/
theorem hlIsTheCompositeOfLAndH : Obligations.HlIsTheCompositeOfLAndH := by
  refine ⟨State.hl_toNat, fun i s t h hhl => ?_, fun bound c s t r h hhl => ?_⟩
  · rcases State.gpr_ne_of_hl_ne hhl with hl | hh
    · exact (Instr.of_writes_gpr (writes_gpr_of_changed h hl)).imp id fun hw => ⟨4#3, .inl rfl, hw⟩
    · exact (Instr.of_writes_gpr (writes_gpr_of_changed h hh)).imp id fun hw => ⟨5#3, .inr rfl, hw⟩
  · rcases State.gpr_ne_of_hl_ne hhl with hl | hh
    · exact (State.perform_gpr h hl).imp id (.imp id (.imp id (.imp fun v => .inl)))
    · exact (State.perform_gpr h hh).imp id (.imp id (.imp id (.imp fun v => .inr)))

/-- Settles O1: each row of R42's table by its own lemma. -/
theorem resetLeavesEverythingZero : Obligations.ResetLeavesEverythingZero := fun cfg =>
  ⟨State.resetWith_gpr cfg, State.resetWith_pc cfg, State.resetWith_sp cfg, State.resetWith_f cfg,
    State.resetWith_st cfg, State.resetWith_byte cfg, State.resetWith_faulted cfg⟩

end Sys2Proof.Claims

/-! PROOFS. Every step keeps the invariant (20_memory.md R50, R54; 60_exceptions.md R241, R246). -/

namespace Sys2Proof.Machine

/-! ### The record of a fault -/

/-- A register field is three bits wide, so a missing one is 6 or 7 (10_state.md R23). -/
theorem MissingRegister.legal {r : RegIx} {e : OutOfBounds} (h : MissingRegister r e) (cfg : Config) (p : Word) :
    FaultRecord.Legal cfg ⟨e.kind.cause, e.info, p⟩ := by
  obtain ⟨hr, rfl⟩ := h
  refine .inl ⟨rfl, ?_⟩
  simp only [oobReg]
  omega

/-- An address is 16 bits wide, so a missing one is at most 0xFFFF. -/
theorem MissingMemory.legal {cfg : Config} {e : OutOfBounds} (h : MissingMemory cfg e) (p : Word) :
    FaultRecord.Legal cfg ⟨e.kind.cause, e.info, p⟩ := by
  rcases h with ⟨a, ha, rfl⟩ | ⟨hf, rfl | rfl⟩
  · refine .inr ⟨rfl, .inl ?_⟩
    simp only [oobMem]
    omega
  · exact .inr ⟨rfl, .inr ⟨hf, .inl rfl⟩⟩
  · exact .inr ⟨rfl, .inr ⟨hf, .inr rfl⟩⟩

/-! ### The invariant -/

/-- A fault state with a legal record meets the invariant where its configuration and its memory do. -/
theorem State.Inv.of_fault {s t : State} (h : s.Inv) (hcfg : t.cfg = s.cfg)
    (hmem : Memory.wf t.mem ∧ ∀ p ∈ t.mem, p.1 < s.cfg.memSize) (hf : t.faulted = true)
    (hr : t.record.Legal s.cfg) : t.Inv where
  config := hcfg ▸ h.config
  memoryForm := hmem.1
  memoryBacked := hcfg ▸ hmem.2
  latchClear := by simp [hf]
  latchSet := fun _ => hcfg ▸ hr

theorem State.setPc_inv {s : State} (h : s.Inv) (p : Word) : (s.setPc p).Inv :=
  ⟨h.config, h.memoryForm, h.memoryBacked, h.latchClear, h.latchSet⟩

theorem State.faultInFetch_inv {s : State} (h : s.Inv) (seen : List Byte) {e : OutOfBounds}
    (he : MissingMemory s.cfg e) : (s.faultInFetch seen e).Inv := by
  obtain ⟨hf, hr⟩ := s.faultInFetch_faulted seen e
  exact h.of_fault (s.faultInFetch_storage seen e).cfg (State.faultInFetch_memory seen e h.memoryForm h.memoryBacked)
    hf (hr ▸ he.legal s.pc)

/-- What an instruction completes with meets the invariant: its effect keeps the configuration, the latch and memory's
form. -/
theorem effect_inv {i : Instr} {s t : State} (h : s.Inv) (he : effect i s = .ok t) : t.Inv := by
  obtain ⟨hfaulted, hrecord, hstorage, -⟩ := effect_frame he
  obtain ⟨hform, hbacked⟩ := effect_memory he h.memoryForm h.memoryBacked
  have hcfg := hstorage.cfg
  exact ⟨hcfg ▸ h.config, hform, hcfg ▸ hbacked, by rw [hfaulted, hrecord]; exact h.latchClear,
    by rw [hfaulted, hrecord, hcfg]; exact h.latchSet⟩

/-- Every instruction keeps the invariant, completing or faulting. -/
theorem exec_inv {i : Instr} {s t : State} (h : s.Inv) (hx : exec i s = .next t) : t.Inv := by
  rcases exec_next hx with he | ⟨e, he, rfl⟩
  · exact effect_inv h he
  · refine h.of_fault (s.takeFault_storage ..).cfg (State.takeFault_memory _ _ _ h.memoryForm h.memoryBacked) rfl ?_
    rcases effect_error he with ⟨r, -, hr⟩ | hm
    · exact hr.legal s.cfg _
    · exact hm.legal _

theorem State.execute1_inv {s t : State} (h : s.Inv) (hx : s.execute1 = .next t) : t.Inv := by
  rcases s.execute1_cases with ⟨e, hb, he⟩ | ⟨op, operands, e, -, -, hbs, he⟩ | ⟨op, operands, u, -, -, hbs, he⟩ <;>
    rw [he] at hx
  · cases hx
    exact State.faultInFetch_inv h _ (State.fetchByte_error hb)
  · cases hx
    exact State.faultInFetch_inv h _ (State.fetchBytes_error (s := s.setPc (s.pc + 1#16)) hbs)
  · obtain rfl := State.fetchBytes_next hbs
    exact exec_inv (State.setPc_inv h _) hx

end Sys2Proof.Machine

namespace Sys2Proof.Claims

open Sys2Proof Sys2Proof.Machine

/-- Settles O3: a halted core stays as it is, and the one instruction of any other step keeps the invariant. -/
theorem stepKeepsInvariant : Obligations.StepKeepsInvariant := by
  intro s t hinv hstep
  obtain ⟨-, ⟨-, rfl⟩ | ⟨-, hx⟩⟩ := step_next hstep
  · exact hinv
  · exact State.execute1_inv hinv hx

end Sys2Proof.Claims

/-! PROOFS. Memory as an instruction sees it: the check of R52 and R53, the faults of an unbacked address, a store that the
next fetch reads (20_memory.md R68), and the memory port (R65, R72). -/

namespace Sys2Proof.Machine

open Sys2Proof.Claims

/-! ### Access to an unbacked address -/

theorem State.backed_eq_true {s : State} {a : Word} (h : a.toNat < s.cfg.memSize) : s.backed a = true := by
  simpa [State.backed] using h

theorem State.ldr_unbacked {s : State} (r : RegIx) {addr : Address} (h : s.backed (s.ea addr) = false) :
    s.ldr r addr = .error (oobMem (s.ea addr)) := by
  simp only [State.ldr, State.memRead_unbacked h, error_bind]

theorem State.str_unbacked {s : State} (g : Gpr) {addr : Address} (h : s.backed (s.ea addr) = false) :
    s.str g.index addr = .error (oobMem (s.ea addr)) := by
  simp only [State.str, State.readReg_index, ok_bind, State.memWrite_unbacked _ h]

theorem State.push_unbacked {s : State} {src : Source} {v : Byte} (hv : s.operand src = .ok v)
    (ho : s.cfg.overflow = .wrap ∨ s.sp ≠ 0x0000#16) (h : s.backed (s.sp - 1#16) = false) :
    s.push src = .error (oobMem (s.sp - 1#16)) := by
  simp only [State.push, hv, Config.decrement_ok ho, ok_bind]
  exact State.memWrite_unbacked v h

theorem effect_pop_unbacked {s : State} (r : RegIx) (h : s.backed s.sp = false) :
    effect (.pop r) s = .error (oobMem s.sp) := by
  simp only [effect, State.memRead_unbacked h, error_bind]

/-! ### Parts of what can be fetched -/

theorem Fetchable.take {s : State} {m n : Nat} (h : Fetchable s n) (hm : m ≤ n) : Fetchable s m :=
  ⟨fun k hk => h.1 k (by omega), h.2.imp id (by omega)⟩

theorem Fetchable.drop {s : State} {k n : Nat} (h : Fetchable s (n + k)) :
    Fetchable (s.setPc (s.pc + BitVec.ofNat 16 k)) n := by
  induction k generalizing s with
  | zero => simpa using h
  | succ k ih =>
    have := ih h.succ.2.2
    rwa [State.setPc_setPc, State.setPc_pc, add_ofNat_succ] at this

/-- The opcode byte of a form without operand bytes, put at PC, is alone the instruction at PC. -/
theorem instrAt_setByte_pc {s : State} {op : Byte} (hwf : Memory.wf s.mem) (h : operandCount op = 0) :
    instrAt (s.setByte s.pc op) = decodeFields op 0#8 0#8 := by
  rw [instrAt, State.setByte_pc, s.setByte_byte_same _ _ hwf]
  exact decodeFields_default op (bs := []) h.symm ..

/-- A step runs the instruction at PC, where its bytes can be fetched, with PC past them. -/
theorem step_instrAt {s : State} {i : Instr} (hrun : s.Runnable) (hi : instrAt s = i) (h : Fetchable s i.length) :
    step s = exec i (s.setPc (s.pc + BitVec.ofNat 16 i.length)) := by
  have hlen : i.length = operandCount (s.byte s.pc) + 1 := by
    rw [← hi, instrAt, decodeFields_length, Nat.add_comm]
  rw [hlen] at h ⊢
  rw [step_runnable hrun, State.execute1_fetchable h, ← hi, instrAt]

/-- STR of an existing register to a backed address puts its value there. -/
theorem exec_strAbs {s : State} (g : Gpr) {a : Word} (h : s.backed a = true) :
    exec (.strAbs g.index a) s = .next (s.setByte a (s.gpr g)) := by
  simp only [exec_eq_conclude, effect, State.str, State.readReg_index, ok_bind, State.ea_abs,
    State.memWrite_backed _ h, conclude_ok]

/-! ### The accesses of a step -/

theorem State.fetchAccesses_read (n : Nat) (s : State) : ∀ x ∈ s.fetchAccesses n, ∃ a, x = .read a := by
  induction n generalizing s with
  | zero => simp [State.fetchAccesses]
  | succ n ih =>
    simp only [State.fetchAccesses, List.mem_cons, forall_eq_or_imp]
    refine ⟨⟨s.pc, rfl⟩, ?_⟩
    cases s.fetchByte with
    | error e => simp
    | ok p => exact ih p.2

/-- Where an instruction's bytes can be fetched, a step makes its fetches and then the access of its effect. -/
theorem State.accesses_fetchable {s : State} (hrun : s.Runnable) (h : Fetchable s (operandCount (s.byte s.pc) + 1)) :
    s.accesses = s.fetchAccesses (operandCount (s.byte s.pc) + 1) ++
      Instr.dataAccess (instrAt s) (s.setPc (s.pc + BitVec.ofNat 16 (operandCount (s.byte s.pc) + 1))) := by
  obtain ⟨hb, ho, hr⟩ := h.succ
  have := decodeFields_fetched (s.byte s.pc) (fun k => s.byte (s.pc + BitVec.ofNat 16 (k + 1)))
  simp only [State.accesses, hrun.1, hrun.2, State.fetchAccesses, State.fetchByte_ok hb ho, State.fetchBytes_ok hr,
    State.setPc_setPc, State.setPc_pc, State.setPc_byte, add_ofNat_succ, this]
  rfl

/-- The data or stack access of an effect that succeeds: a write, and memory is as with that byte put there, or none or a
read, and every byte stays. -/
theorem effect_dataAccess {i : Instr} {s t : State} (h : effect i s = .ok t) :
    (∃ a v, Instr.dataAccess i s = [.write a v] ∧ ∀ b, t.byte b = (s.setByte a v).byte b) ∨
      (∀ x ∈ Instr.dataAccess i s, ∃ a, x = .read a) ∧ ∀ a, t.byte a = s.byte a := by
  cases i with
  | strAbs | strHl =>
    obtain ⟨g, rfl, -, rfl⟩ := State.str_ok h
    exact .inl ⟨_, s.gpr g, by simp [Instr.dataAccess, storeAccess], fun _ => rfl⟩
  | pushImm | pushReg =>
    obtain ⟨v, hv, hd, -, rfl⟩ := State.push_ok h
    exact .inl ⟨_, v, by simp [Instr.dataAccess, State.pushAccess, hv, hd], fun _ => rfl⟩
  | _ =>
    exact .inr ⟨by simp [Instr.dataAccess], fun a => (effect_frame h).others (.mem a) (by simp [Instr.writes])⟩

end Sys2Proof.Machine

namespace Sys2Proof.Claims

open Sys2Proof Sys2Proof.Machine

/-- Settles O16: the bytes before byte `k` are fetched, and the fetch of byte `k` finds its address unbacked. -/
theorem operandFetchOutOfRangeFaults : Obligations.OperandFetchOutOfRangeFaults := by
  intro s k hrun _ hk hfetch hout
  have he : (s.setPc (s.pc + BitVec.ofNat 16 k)).fetchByte = .error (oobMem (s.pc + BitVec.ofNat 16 k)) :=
    State.fetchByte_unbacked (State.backed_eq_false hout)
  obtain ⟨seen, hex⟩ := State.execute1_fetch_fails hk hfetch he
  exact ⟨_, (step_runnable hrun).trans hex, faultState_faultInFetch ..⟩

/-- Settles O40: the memory access is what fails, in each form, and a fault of a fetched instruction leaves memory. -/
theorem dataAccessOutOfRangeFaults : Obligations.DataAccessOutOfRangeFaults := by
  intro s i r g addr v hout hi
  have hb : s.backed addr = false := State.backed_eq_false hout
  have he : effect i s = .error (oobMem addr) := by
    rcases hi with (⟨rfl, -⟩ | ⟨rfl, rfl⟩) | (⟨rfl, -⟩ | ⟨rfl, rfl⟩) | ⟨rfl, rfl⟩ | ⟨rfl | ⟨k, rfl, rfl⟩, ho, rfl⟩
    · exact State.ldr_unbacked r hb
    · exact State.ldr_unbacked r hb
    · exact State.str_unbacked g hb
    · exact State.str_unbacked g hb
    · exact effect_pop_unbacked r hb
    · exact State.push_unbacked (s.operand_imm v) ho hb
    · exact State.push_unbacked (s.operand_reg k) ho hb
  exact exec_of_effect_error he

/-- Settles O47: the check decides both accesses, and a write puts one byte into memory. -/
theorem memoryReadsAndWritesOneByte : Obligations.MemoryReadsAndWritesOneByte := by
  intro s a v
  refine ⟨fun hout => ?_, fun hin hwf => ?_, fun hfull => ?_⟩
  · have hb := State.backed_eq_false hout
    exact ⟨State.memRead_unbacked hb, State.memWrite_unbacked v hb⟩
  · have hb := State.backed_eq_true hin
    refine ⟨State.memRead_backed hb, s.setByte a v, State.memWrite_backed v hb, ?_, fun b => s.setByte_byte_other v,
      s.setByte_gpr a v, rfl, rfl, rfl, rfl, rfl, ⟨rfl, rfl⟩, rfl⟩
    rw [State.memRead_backed (by simpa using hb), s.setByte_byte_same a v hwf]
  · exact State.memRead_backed (State.backed_eq_true (hfull ▸ a.isLt))

/-- Settles O49: the STR's three bytes are fetched and its store leaves PC at the stored byte, which the next step fetches
and, since the form has no operand byte, runs alone. -/
theorem storeIsSeenByTheNextFetch : Obligations.StoreIsSeenByTheNextFetch := by
  intro s g hrun hwf hfetch hstr hcount
  have hstep := step_instrAt hrun hstr (hfetch.take (by simp [Instr.length]))
  have hb : (s.setPc (s.pc + 3#16)).backed (s.pc + 3#16) = true := hfetch.1 3 (by decide)
  rw [Instr.length, exec_strAbs g hb, State.setPc_gpr] at hstep
  refine ⟨_, hstep, ?_⟩
  have hrun' : ((s.setPc (s.pc + 3#16)).setByte (s.pc + 3#16) (s.gpr g)).Runnable := hrun
  have hnext := instrAt_setByte_pc (s := s.setPc (s.pc + 3#16)) hwf hcount
  have hlen : (decodeFields (s.gpr g) 0#8 0#8).length = 1 := by rw [decodeFields_length, hcount]
  have hrest : Fetchable (s.setPc (s.pc + 3#16)) 1 := hfetch.drop (k := 3)
  rw [step_instrAt hrun' hnext (hlen ▸ hrest), hlen, State.setByte_pc, State.setPc_pc, BitVec.add_assoc]
  rfl

/-- Settles O53: the fetches are reads, and the access of the effect, where it is a write, is the change of memory. -/
theorem onlyTheListedWriteChangesMemory : Obligations.OnlyTheListedWriteChangesMemory := by
  intro s t hrun hwf hstep ht
  obtain ⟨hfetch, heff⟩ := step_completes hrun hstep ht
  have hreads := s.fetchAccesses_read (operandCount (s.byte s.pc) + 1)
  rw [State.accesses_fetchable hrun hfetch]
  rcases effect_dataAccess heff with ⟨a, v, hacc, hbyte⟩ | ⟨hdata, hsame⟩
  · have hval : t.byte a = v := (hbyte a).trans (s.setByte_byte_same a v hwf)
    rw [hacc, List.getLast?_concat, List.dropLast_concat]
    refine ⟨fun b hb => ?_, fun b w hw => ?_, hreads⟩
    · have : b = a := by
        by_contra hne
        exact hb ((hbyte b).trans (s.setByte_byte_other v hne))
      rw [this, hval]
    · rcases List.mem_append.mp hw with hw | hw
      · exact (hreads _ hw).elim nofun
      · cases List.mem_singleton.mp hw
        exact hval
  · have hall := List.forall_mem_append.mpr ⟨hreads, hdata⟩
    exact ⟨fun b hb => absurd (hsame b) hb, fun b w hw => (hall _ hw).elim nofun,
      fun x hx => hall x (List.mem_of_mem_dropLast hx)⟩

end Sys2Proof.Claims

/-! PROOFS. The encoding (30_encoding.md): the opcode byte and its fields (R83), decoding what was encoded (R89), the ignored
fields (R88, R92) and the length table (R86). -/

namespace Sys2Proof

/-! ### The opcode byte -/

theorem opcodeByte_toNat (o : Opcode) (m : Bool) (r : RegIx) :
    (opcodeByte o m r).toNat = 16 * o.bits.toNat + 8 * m.toNat + r.toNat := by
  revert m r; cases o <;> decide

@[simp] theorem Opcode.bits_ofBits (o : BitVec 4) : (Opcode.ofBits o).bits = o := by
  revert o; decide

theorem opcodeField_toNat (b : Byte) : (opcodeField b).toNat = b.toNat / 16 := by
  have := b.isLt
  rw [opcodeField, BitVec.extractLsb'_toNat, Nat.shiftRight_eq_div_pow]
  omega

theorem modeField_toNat (b : Byte) : (modeField b).toNat = b.toNat / 8 % 2 := by
  rw [modeField, BitVec.getLsbD, Nat.toNat_testBit]

theorem regField_toNat (b : Byte) : (regField b).toNat = b.toNat % 8 := by
  rw [regField, BitVec.extractLsb'_toNat, Nat.shiftRight_zero]

/-- A byte is its opcode in bits 7:4, its mode bit in bit 3 and its register field in bits 2:0. -/
theorem opcodeByte_fields (b : Byte) : opcodeByte (Opcode.ofBits (opcodeField b)) (modeField b) (regField b) = b := by
  apply BitVec.eq_of_toNat_eq
  rw [opcodeByte_toNat, Opcode.bits_ofBits, opcodeField_toNat, modeField_toNat, regField_toNat]
  omega

/-- So a fact about all opcode bytes is one about all opcodes, mode bits and register fields. -/
theorem exists_opcodeByte (b : Byte) : ∃ o m r, b = opcodeByte o m r := ⟨_, _, _, (opcodeByte_fields b).symm⟩

/-! ### Operand bytes -/

@[simp] theorem lowByte_wordOfBytes (lo hi : Byte) : lowByte (wordOfBytes lo hi) = lo := by
  rw [lowByte, wordOfBytes_eq_append, BitVec.extractLsb'_append_eq_right]

@[simp] theorem highByte_wordOfBytes (lo hi : Byte) : highByte (wordOfBytes lo hi) = hi := by
  rw [highByte, wordOfBytes_eq_append, BitVec.extractLsb'_append_eq_left]

/-- A selector byte with bits 7:3 cleared is the selector alone (R84). -/
theorem and_selectorMask (b : Byte) : b &&& 0x07#8 = (regField b).setWidth 8 := by
  apply BitVec.eq_of_toNat_eq
  have : b.toNat % 8 < 256 := by omega
  rw [BitVec.toNat_setWidth, regField_toNat, BitVec.toNat_and, Nat.mod_eq_of_lt this]
  exact Nat.and_two_pow_sub_one_eq_mod b.toNat 3

/-! ### Decoding and encoding -/

/-- An opcode byte, the operand bytes it counts and anything after them decode to the opcode byte with those operands. -/
theorem decode_append {op : Byte} {operands : List Byte} (h : operands.length = operandCount op) (rest : List Byte) :
    decode (op :: (operands ++ rest)) = .ok (decodeFields op (operands.getD 0 0) (operands.getD 1 0), rest) := by
  have hget : ∀ n, (operands ++ rest).getD n 0 = operands.getD n ((operands ++ rest).getD n 0) := by
    intro n
    by_cases hn : n < operands.length
    · rw [List.getD_append _ _ _ _ hn, List.getD_eq_getElem _ _ hn, List.getD_eq_getElem _ _ hn]
    · rw [List.getD_eq_default operands _ (Nat.le_of_not_lt hn)]
  rw [decode, if_pos (by simp [h]), hget 0, hget 1, Machine.decodeFields_default op h _ _ 0 0, ← h, List.drop_left]

/-- An encoding is an opcode byte and the operand bytes it counts, whose fields are the instruction's (R89). -/
theorem encode_eq_cons (i : Instr) : ∃ op operands, encode i = op :: operands ∧ operands.length = operandCount op ∧
    decodeFields op (operands.getD 0 0) (operands.getD 1 0) = i := by
  cases i <;> exact ⟨_, _, rfl, by simp [operandCount, Opcode.operandBytes], by simp [decodeFields]⟩

/-! ### Ignored fields -/

theorem opcodeByte_and_clearModeReg (o : Opcode) (m : Bool) (r : RegIx) :
    opcodeByte o m r &&& 0xF0#8 = opcodeByte o false 0 := by
  revert m r; cases o <;> decide

theorem opcodeByte_and_clearMode (o : Opcode) (m : Bool) (r : RegIx) :
    opcodeByte o m r &&& 0xF7#8 = opcodeByte o false r := by
  revert m r; cases o <;> decide

theorem opcodeByte_and_clearReg (o : Opcode) (m : Bool) (r : RegIx) :
    opcodeByte o m r &&& 0xF8#8 = opcodeByte o m 0 := by
  revert m r; cases o <;> decide

end Sys2Proof

namespace Sys2Proof.Claims

open Sys2Proof Sys2Proof.Machine

/-- Settles O5: an encoding is an opcode byte with the operand bytes it counts, so decoding takes those and leaves the
rest. -/
theorem decodeEncodeAgree : Obligations.DecodeEncodeAgree := by
  intro i rest
  obtain ⟨op, operands, henc, hlen, hfields⟩ := encode_eq_cons i
  rw [henc, List.cons_append, decode_append hlen, hfields]

/-- Settles O6: the byte is a sum of its fields, which come back by division. -/
theorem opcodeByteEncodesItsFields : Obligations.OpcodeByteEncodesItsFields :=
  ⟨fun o m r => ⟨opcodeByte_toNat o m r, by simp, modeField_opcodeByte o m r, regField_opcodeByte o m r⟩,
    opcodeByte_fields⟩

/-- Settles O7: the masks of R88 clear fields of the opcode byte that its form does not decode, and the encoder writes zero
there. -/
theorem encodeGivesTheCanonicalBytes : Obligations.EncodeGivesTheCanonicalBytes := by
  intro op b1 b2
  obtain ⟨o, m, r, rfl⟩ := exists_opcodeByte op
  cases o <;> cases m <;>
    simp [canonicalOpcodeByte, canonicalOperandByte, decodeFields, encode, operandCount, Opcode.operandBytes,
      opcodeByte_and_clearModeReg, opcodeByte_and_clearMode, opcodeByte_and_clearReg, and_selectorMask]

/-- Settles O8: `decode` checks the length alone, and the opcode value of R86's table is the byte divided by 16. -/
theorem decodeTakesExactlyTheBytesOfTheLengthTable : Obligations.DecodeTakesExactlyTheBytesOfTheLengthTable := by
  refine ⟨fun op rest => ⟨fun h => ?_, fun h => ?_⟩, fun op => ?_⟩
  · exact ⟨_, by rw [decode, if_pos h], decodeFields_length op _ _⟩
  · exact ⟨_, by rw [decode, if_neg (Nat.not_le.mpr h)]⟩
  · obtain ⟨o, m, r, rfl⟩ := exists_opcodeByte op
    rw [← opcodeField_toNat, operandCount, opcodeField_opcodeByte, modeField_opcodeByte, Opcode.ofBits_bits]
    cases o <;> cases m <;> rfl

/-- Settles O9: each word is decoded by evaluation. -/
theorem sampleWordsDecode : Obligations.SampleWordsDecode := by
  unfold Obligations.SampleWordsDecode
  decide

end Sys2Proof.Claims

/-! PROOFS. Register fields as the encoding allows them (30_encoding.md R91): an access to a missing register faults, nothing
else raises a register fault; and the five idioms (R94). -/

namespace Sys2Proof.Machine

open Sys2Proof.Claims

/-! ### The first missing register, sel before r (60_exceptions.md R249) -/

/-- The register field of an operand. -/
def Source.field : Source → List RegIx
  | .imm _ => []
  | .reg sel => [sel]

theorem RegIx.named_eq_false {r : RegIx} : RegIx.named r = false ↔ 6 ≤ r.toNat := by simp [RegIx.named]

/-- The first register, in the order of access, that does not exist. -/
def firstMissing (accesses : List RegIx) : Option RegIx := accesses.find? fun r => !RegIx.named r

theorem firstMissing_cons_index (g : Gpr) (rs : List RegIx) : firstMissing (g.index :: rs) = firstMissing rs := by
  simp [firstMissing]

theorem firstMissing_cons_missing {r : RegIx} (h : 6 ≤ r.toNat) (rs : List RegIx) : firstMissing (r :: rs) = some r := by
  simp [firstMissing, RegIx.named_eq_false.mpr h]

theorem firstMissing_singleton {r q : RegIx} (h : firstMissing [r] = some q) : r = q ∧ 6 ≤ q.toNat := by
  rcases index_or_missing r with ⟨g, rfl⟩ | hr
  · simp [firstMissing] at h
  · rw [firstMissing_cons_missing hr, Option.some.injEq] at h
    exact ⟨h, h ▸ hr⟩

/-- An ill-formed instruction has a first missing register. -/
theorem exists_firstMissing {i : Instr} (h : i.wellFormed = false) : ∃ q, firstMissing i.accessed.reverse = some q := by
  rw [Instr.wellFormed, List.all_eq_false] at h
  exact Option.isSome_iff_exists.mp (List.find?_isSome.mpr (by simpa using h))

/-- An operation that takes its operand and then faults where x[r] does not exist faults at the first missing register. -/
theorem State.operand_bind_missing {s : State} {r q : RegIx} {src : Source} {k : Byte → Except OutOfBounds State}
    (hk : ∀ v, 6 ≤ r.toNat → k v = .error (oobReg r)) (h : firstMissing (src.field ++ [r]) = some q) :
    (s.operand src >>= k) = .error (oobReg q) := by
  have hlast : ∀ v, firstMissing [r] = some q → k v = .error (oobReg q) := by
    intro v hr
    obtain ⟨rfl, hr⟩ := firstMissing_singleton hr
    exact hk v hr
  cases src with
  | imm v => exact hlast v h
  | reg sel =>
    rcases index_or_missing sel with ⟨g, rfl⟩ | hsel
    · rw [State.operand_reg, ok_bind]
      exact hlast _ ((firstMissing_cons_index g [r]).symm.trans h)
    · rw [Source.field, List.singleton_append, firstMissing_cons_missing hsel, Option.some.injEq] at h
      rw [State.operand, s.readReg_missing hsel, error_bind, h]

theorem State.mov_missing {s : State} {r q : RegIx} {src : Source} (h : firstMissing (src.field ++ [r]) = some q) :
    s.mov r src = .error (oobReg q) :=
  State.operand_bind_missing (fun v hr => s.writeReg_missing v hr) h

theorem State.addWith_missing {s : State} {r q : RegIx} {src : Source} (c : Bool)
    (h : firstMissing (src.field ++ [r]) = some q) : s.addWith r src c = .error (oobReg q) :=
  State.operand_bind_missing (fun v hr => by rw [s.readReg_missing hr, error_bind]) h

theorem State.compare_missing {s : State} {r q : RegIx} {src : Source} (h : firstMissing (src.field ++ [r]) = some q) :
    s.compare r src = .error (oobReg q) :=
  State.operand_bind_missing (fun v hr => by rw [s.readReg_missing hr, error_bind]) h

theorem State.combine_missing {s : State} {r q : RegIx} {src : Source} (op : Byte → Byte → Byte)
    (h : firstMissing (src.field ++ [r]) = some q) : s.combine r src op = .error (oobReg q) :=
  State.operand_bind_missing (fun v hr => by rw [s.readReg_missing hr, error_bind]) h

theorem State.ldr_missing {s : State} {r : RegIx} {addr : Address} (hb : s.backed (s.ea addr) = true)
    (h : 6 ≤ r.toNat) : s.ldr r addr = .error (oobReg r) := by
  rw [State.ldr, State.memRead_backed hb, ok_bind, s.writeReg_missing _ h]

theorem State.str_missing {s : State} {r : RegIx} (addr : Address) (h : 6 ≤ r.toNat) :
    s.str r addr = .error (oobReg r) := by
  rw [State.str, s.readReg_missing h, error_bind]

theorem State.push_missing {s : State} {r : RegIx} (h : 6 ≤ r.toNat) : s.push (.reg r) = .error (oobReg r) := by
  rw [State.push, State.operand, s.readReg_missing h, error_bind]

theorem effect_pop_missing {s : State} {r : RegIx} (hb : s.backed s.sp = true) (h : 6 ≤ r.toNat) :
    effect (.pop r) s = .error (oobReg r) := by
  rw [effect, State.memRead_backed hb, ok_bind, s.writeReg_missing _ h, error_bind]

/-- The effect of an instruction with a missing register raises OutOfBounds(REG) for the first of them, if what it reads
from memory before is backed. -/
theorem effect_missing {i : Instr} {s : State} {q : RegIx} (hq : firstMissing i.accessed.reverse = some q)
    (habs : ∀ r a, i = .ldrAbs r a → s.backed a = true) (hhl : ∀ r, i = .ldrHl r → s.backed s.hl = true)
    (hpop : ∀ r, i = .pop r → s.backed s.sp = true) : effect i s = .error (oobReg q) := by
  cases i with
  | nop | hlt | lhl | pushImm | jmpAbs | jmpHl | jzAbs | jzHl => cases hq
  | movImm | movReg => exact State.mov_missing hq
  | addImm | addReg | adcImm | adcReg => exact State.addWith_missing _ hq
  | cmpImm | cmpReg => exact State.compare_missing hq
  | subImm | subReg | nandImm | nandReg | norImm | norReg => exact State.combine_missing _ hq
  | ldrAbs r a =>
    obtain ⟨rfl, hr⟩ := firstMissing_singleton hq
    exact State.ldr_missing (habs r a rfl) hr
  | ldrHl r =>
    obtain ⟨rfl, hr⟩ := firstMissing_singleton hq
    exact State.ldr_missing (hhl r rfl) hr
  | strAbs r | strHl r =>
    obtain ⟨rfl, hr⟩ := firstMissing_singleton hq
    exact State.str_missing _ hr
  | pushReg r =>
    obtain ⟨rfl, hr⟩ := firstMissing_singleton hq
    exact State.push_missing hr
  | pop r =>
    obtain ⟨rfl, hr⟩ := firstMissing_singleton hq
    exact effect_pop_missing (hpop r rfl) hr

/-! ### The cause of a fault -/

/-- A well-formed instruction accesses no missing register. -/
theorem Instr.not_missingRegister {i : Instr} (h : i.wellFormed = true) {r : RegIx} {e : OutOfBounds}
    (hr : r ∈ i.accessed) : ¬ MissingRegister r e := by
  rintro ⟨hmissing, -⟩
  have hnamed : RegIx.named r = true := List.all_eq_true.mp h r hr
  rw [RegIx.named_eq_false.mpr hmissing] at hnamed
  cases hnamed

theorem MissingMemory.kind_eq {cfg : Config} {e : OutOfBounds} (h : MissingMemory cfg e) : e.kind = .mem := by
  rcases h with ⟨a, -, rfl⟩ | ⟨-, rfl | rfl⟩ <;> rfl

/-- An instruction that enters the fault state raised OutOfBounds. -/
theorem effect_error_of_faulted {i : Instr} {s t : State} (h : exec i s = .next t) (hs : s.faulted = false)
    (ht : t.faulted = true) : ∃ e, effect i s = .error e ∧ t.record.cause = e.kind.cause := by
  rcases exec_next h with he | ⟨e, he, rfl⟩
  · simp [(effect_frame he).faulted, hs] at ht
  · exact ⟨e, he, rfl⟩

/-! ### Effects on existing registers -/

theorem exec_of_effect_ok {i : Instr} {s t : State} (h : effect i s = .ok t) : exec i s = .next t := by
  rw [exec_eq_conclude, h, conclude_ok]

theorem State.combine_operand {s : State} (g : Gpr) {src : Source} {v : Byte} (op : Byte → Byte → Byte)
    (hv : s.operand src = .ok v) : s.combine g.index src op = .ok (s.setGpr g (op (s.gpr g) v)) := by
  simp only [State.combine, hv, State.readReg_index, State.writeReg_index, ok_bind]

theorem State.compare_operand {s : State} (g : Gpr) {src : Source} {v : Byte} (hv : s.operand src = .ok v) :
    s.compare g.index src = .ok (s.setZero (differenceZero (difference (s.gpr g) v))) := by
  simp only [State.compare, hv, State.readReg_index, ok_bind]

theorem State.jz_of_zero {s : State} (addr : Address) (h : s.zero = true) : s.jz addr = s := by simp [State.jz, h]

theorem changesOnlyGpr_setGpr (s : State) (g : Gpr) (v : Byte) : ChangesOnlyGpr g v s (s.setGpr g v) :=
  ⟨s.setGpr_gpr_same g v, fun _ => s.setGpr_gpr_other v, s.setGpr_f g v, s.setGpr_pc g v, s.setGpr_sp g v,
    s.setGpr_st g v, s.setGpr_mem g v, ⟨s.setGpr_faulted g v, s.setGpr_record g v⟩, s.setGpr_cfg g v⟩

theorem difference_self (d : Byte) : difference d d = 0#8 := BitVec.sub_self d

theorem nandByte_self (d : Byte) : nandByte d d = ~~~d := by rw [nandByte, BitVec.and_self]

theorem norByte_self (d : Byte) : norByte d d = ~~~d := by rw [norByte, BitVec.or_self]

end Sys2Proof.Machine

namespace Sys2Proof.Claims

open Sys2Proof Sys2Proof.Machine

/-- Settles O39: the effect raises OutOfBounds for the first missing register, and a fault of a fetched instruction leaves
memory. -/
theorem missingRegisterFaults : Obligations.MissingRegisterFaults := by
  intro i s hwf habs hhl hpop
  obtain ⟨q, hq⟩ := exists_firstMissing hwf
  obtain ⟨t, hexec, hfault, hmem⟩ := exec_of_effect_error (effect_missing hq habs hhl hpop)
  exact ⟨t, q, hexec, hq, hfault, hmem⟩

/-- Settles O42: an effect raises OutOfBounds for a missing register it accesses or for an address, and the seven forms
named have no effect that raises it. -/
theorem onlyMissingRegistersRaiseRegisterFaults : Obligations.OnlyMissingRegistersRaiseRegisterFaults := by
  intro i s t hexec hs ht
  obtain ⟨e, he, hcause⟩ := effect_error_of_faulted hexec hs ht
  refine ⟨fun hwf => ?_, ?_⟩
  · rcases effect_error he with ⟨r, hr, hm⟩ | hm
    · exact absurd hm (Instr.not_missingRegister hwf hr)
    · rw [hcause, hm.kind_eq]
      rfl
  · refine ⟨?_, ?_, fun _ _ => ?_, fun _ => ?_, ?_, fun _ => ?_, ?_⟩ <;> rintro rfl <;> cases he

/-- A combining operation of a register with itself changes that register alone. -/
theorem changesOnlyGpr_combine_self {i : Instr} {s : State} (g : Gpr) {op : Byte → Byte → Byte} {v : Byte}
    (hi : effect i s = s.combine g.index (.reg g.index) op) (hv : op (s.gpr g) (s.gpr g) = v) :
    ∃ t, exec i s = .next t ∧ ChangesOnlyGpr g v s t := by
  rw [State.combine_operand g op (s.operand_reg g), hv] at hi
  exact ⟨_, exec_of_effect_ok hi, changesOnlyGpr_setGpr s g v⟩

/-- Settles O50: x op x for NAND, NOR and SUB; CMP r,r sets ZERO, where JZ falls through; LHL puts the word in HL. -/
theorem idiomsHold : Obligations.IdiomsHold := by
  intro s g w
  refine ⟨changesOnlyGpr_combine_self g rfl (nandByte_self _), changesOnlyGpr_combine_self g rfl (norByte_self _),
    changesOnlyGpr_combine_self g rfl (difference_self _), ?_, ?_⟩
  · have heff : effect (.cmpReg g.index g.index) s = .ok (s.setZero true) := by
      rw [effect, State.compare_operand g (s.operand_reg g), difference_self]
      rfl
    have hjz : ∀ pc addr, ((s.setZero true).setPc pc).jz addr = (s.setZero true).setPc pc :=
      fun pc addr => State.jz_of_zero addr (by simp)
    exact ⟨_, exec_of_effect_ok heff, s.setZero_zero true,
      fun pc => ⟨exec_of_effect_ok (congrArg _ (hjz pc (.abs w))), exec_of_effect_ok (congrArg _ (hjz pc .hl))⟩⟩
  · have hhl : ((s.setGpr .L (lowByte w)).setGpr .H (highByte w)).hl = w := wordOfBytes_low_high w
    refine ⟨_, exec_of_effect_ok rfl, fun pc => exec_of_effect_ok ?_⟩
    rw [effect, State.jmp, State.ea_hl, State.setPc_hl, hhl, State.setPc_setPc]

end Sys2Proof.Claims

/-! PROOFS. A step runs the instruction at PC (40_execution_model.md R110 to R112), a placed word among them, and an
instruction changes only what its rule writes (R119), with the frames of MOV, LDR, STR and the operations of 44_alu.md. -/

namespace Sys2Proof

/-- Three bytes hold any instruction: no form has more than two operand bytes. -/
theorem decode_three (op b1 b2 : Byte) :
    decode [op, b1, b2] = .ok (decodeFields op b1 b2, [b1, b2].drop (operandCount op)) :=
  if_pos (Machine.operandBytes_le_two _ _)

/-- A table word is three bytes, the fields of its instruction. -/
theorem decodeTableWord_eq_some {nbits w : Nat} {i : Instr} (h : decodeTableWord nbits w = some i) :
    ∃ op b1 b2, tableBytes nbits w = [op, b1, b2] ∧ decodeFields op b1 b2 = i := by
  refine ⟨_, _, _, rfl, ?_⟩
  rw [decodeTableWord, tableBytes, decode_three] at h
  exact Option.some.inj h

end Sys2Proof

namespace Sys2Proof.Machine

open Sys2Proof.Claims

/-! ### Placed bytes -/

theorem State.placeBytes_byte_other (s : State) {a b : Word} {bs : List Byte}
    (h : ∀ k < bs.length, b ≠ a + BitVec.ofNat 16 k) : (s.placeBytes a bs).byte b = s.byte b := by
  induction bs generalizing s a with
  | nil => rfl
  | cons v bs ih =>
    have hb : b ≠ a := by simpa using h 0 (by simp)
    have hrest : ∀ k < bs.length, b ≠ a + 1#16 + BitVec.ofNat 16 k := fun k hk => by
      rw [add_ofNat_succ]
      exact h (k + 1) (by simpa using hk)
    rw [State.placeBytes, ih _ hrest]
    split
    · exact s.setByte_byte_other v hb
    · rfl

/-- Of at most 65536 placed bytes each stands at its address, if that is backed: none is overwritten by a later one. -/
theorem State.placeBytes_byte {s : State} {a : Word} {bs : List Byte} (hwf : Memory.wf s.mem)
    (hlen : bs.length ≤ 65536) {k : Nat} (hk : k < bs.length) (hb : s.backed (a + BitVec.ofNat 16 k) = true) :
    (s.placeBytes a bs).byte (a + BitVec.ofNat 16 k) = bs[k] := by
  induction bs generalizing s a k with
  | nil => cases hk
  | cons v bs ih =>
    rw [List.length_cons] at hlen hk
    rw [State.placeBytes]
    cases k with
    | zero =>
      have hne : ∀ j < bs.length, a ≠ a + 1#16 + BitVec.ofNat 16 j := by
        intro j hj
        bv_omega
      rw [BitVec.add_zero] at hb ⊢
      rw [if_pos hb, State.placeBytes_byte_other _ hne]
      exact s.setByte_byte_same a v hwf
    | succ k =>
      rw [← add_ofNat_succ a k] at hb ⊢
      split
      · exact ih (s := s.setByte a v) (Memory.write_wf _ _ hwf) (by omega) (by omega) hb
      · exact ih hwf (by omega) (by omega) hb

/-- What can be fetched is a matter of PC and the configuration. -/
theorem Fetchable.congr {s t : State} {n : Nat} (h : Fetchable s n) (hpc : t.pc = s.pc) (hcfg : t.cfg = s.cfg) :
    Fetchable t n := by
  unfold Fetchable State.backed at h ⊢
  rwa [hpc, hcfg]

@[simp] theorem State.withFetchWord_pc (s : State) (nbits w : Nat) : (s.withFetchWord nbits w).pc = s.pc := by
  obtain ⟨-, -, hpc, -⟩ := s.placeBytes_frame s.pc (tableBytes nbits w)
  exact hpc

@[simp] theorem State.withFetchWord_cfg (s : State) (nbits w : Nat) : (s.withFetchWord nbits w).cfg = s.cfg := by
  obtain ⟨hcfg, -⟩ := s.placeBytes_frame s.pc (tableBytes nbits w)
  exact hcfg

@[simp] theorem State.withFetchWord_byte (s : State) (nbits w : Nat) (a : Word) :
    (s.withFetchWord nbits w).byte a = (s.placeBytes s.pc (tableBytes nbits w)).byte a := by
  rw [State.withFetchWord, State.setLatch_byte, State.setHalt_byte]

theorem State.withFetchWord_runnable (s : State) (nbits w : Nat) : (s.withFetchWord nbits w).Runnable :=
  ⟨rfl, State.setHalt_halt _ false⟩

/-- The placed word is the instruction at PC. -/
theorem State.instrAt_withFetchWord {s : State} {nbits w : Nat} {i : Instr} (hwf : Memory.wf s.mem)
    (hfetch : Fetchable s 3) (hi : decodeTableWord nbits w = some i) : instrAt (s.withFetchWord nbits w) = i := by
  obtain ⟨op, b1, b2, hbytes, hfields⟩ := decodeTableWord_eq_some hi
  have hbyte : ∀ k (hk : k < 3), (s.withFetchWord nbits w).byte (s.pc + BitVec.ofNat 16 k) = [op, b1, b2][k] := by
    intro k hk
    rw [State.withFetchWord_byte, hbytes]
    exact State.placeBytes_byte hwf (by simp) hk (hfetch.1 k hk)
  have h0 := hbyte 0 (by decide)
  rw [BitVec.add_zero] at h0
  rw [instrAt, State.withFetchWord_pc, h0, hbyte 1 (by decide), hbyte 2 (by decide)]
  exact hfields

/-- No instruction is longer than three bytes (30_encoding.md R86). -/
theorem instrAt_length_le (s : State) : (instrAt s).length ≤ 3 := by
  rw [instrAt, decodeFields_length, Nat.add_comm]
  exact Nat.succ_le_succ (operandBytes_le_two _ _)

/-! ### F and S bit by bit (10_state.md R31, R35, R37) -/

/-- Where ZERO stays, every bit of F but CARRY does. -/
theorem State.SameStorage.f_but_carry {s t : State} (h : s.SameStorage t) (hz : t.zero = s.zero) :
    ∀ n, n ≠ 1 → t.f.getLsbD n = s.f.getLsbD n
  | 0, _ => hz
  | 1, hn => absurd rfl hn
  | n + 2, _ => h.flags (n + 2) (Nat.le_add_left ..)

/-- Where CARRY stays, every bit of F but ZERO does. -/
theorem State.SameStorage.f_but_zero {s t : State} (h : s.SameStorage t) (hc : t.carry = s.carry) :
    ∀ n, n ≠ 0 → t.f.getLsbD n = s.f.getLsbD n
  | 0, hn => absurd rfl hn
  | 1, _ => hc
  | n + 2, _ => h.flags (n + 2) (Nat.le_add_left ..)

theorem State.SameStorage.f_eq {s t : State} (h : s.SameStorage t) (hz : t.zero = s.zero) (hc : t.carry = s.carry) :
    t.f = s.f := by
  refine BitVec.eq_of_getLsbD_eq fun n _ => ?_
  by_cases hn : n = 0
  · exact hn ▸ hz
  · exact h.f_but_zero hc n hn

theorem State.SameStorage.st_eq {s t : State} (h : s.SameStorage t) (hh : t.halt = s.halt) : t.st = s.st := by
  refine BitVec.eq_of_getLsbD_eq fun n _ => ?_
  cases n with
  | zero => exact hh
  | succ n => exact h.status (n + 1) (Nat.le_add_left ..)

/-! ### What an instruction leaves, from the list of what its rule writes -/

theorem exec_same {i : Instr} {s t : State} {locs : List Loc} (h : exec i s = .next t) (hw : Instr.writes i s = locs) :
    ∀ loc, loc ∉ locs → Loc.Same s t loc := hw ▸ (exec_frame h).2

theorem writes_of_resultOnlyIn {r : RegIx} {i : Instr} (s : State) (h : ResultOnlyIn r i) :
    Instr.writes i s = [.pc, .gpr r] := by
  cases i with
  | movImm | movReg | ldrAbs | ldrHl | subImm | subReg | nandImm | nandReg | norImm | norReg => cases h; rfl
  | _ => cases h

theorem writes_of_addressIs {r : RegIx} {i : Instr} {addr : Word} {s : State}
    (h : AddressIs s (.strAbs r) (.strHl r) i addr) : Instr.writes i s = [.pc, .mem addr] := by
  rcases h with ⟨rfl, -⟩ | ⟨rfl, rfl⟩ <;> rfl

/-- The latch changes only by a fault, whose record names the address of the instruction. -/
theorem exec_keepsLatchOrFaults {i : Instr} {s t : State} (h : exec i s = .next t) : KeepsLatchOrFaults i s t := by
  rcases exec_next h with he | ⟨e, -, rfl⟩
  · exact .inl ⟨(effect_frame he).faulted, (effect_frame he).record⟩
  · exact .inr ⟨rfl, rfl⟩

end Sys2Proof.Machine

namespace Sys2Proof.Claims

open Sys2Proof Sys2Proof.Machine

/-- Settles O10: the three bytes at PC decode to the instruction there, which a step runs. -/
theorem stepRunsTheDecodedInstruction : Obligations.StepRunsTheDecodedInstruction := by
  intro s i rest hrun hdec hfetch
  rw [decode_three] at hdec
  exact step_instrAt hrun (congrArg Prod.fst (Except.ok.inj hdec)) hfetch

/-- Settles O11: the placed bytes are the instruction at PC, and placing them moves neither PC nor the configuration, so
that they can be fetched. -/
theorem placedWordRunsNext : Obligations.PlacedWordRunsNext := by
  intro s nbits w i hwf hfetch hi
  have hinstr := State.instrAt_withFetchWord hwf hfetch hi
  have hfetch' : Fetchable (s.withFetchWord nbits w) i.length :=
    (hfetch.congr (by simp) (by simp)).take (hinstr ▸ instrAt_length_le _)
  rw [step_instrAt (s.withFetchWord_runnable nbits w) hinstr hfetch', State.withFetchWord_pc]

/-- Settles O19: the frame of the effect, or of the fault state that stands for it, and the latch's own lemma. -/
theorem instructionChangesOnlyWhatItsRuleWrites : Obligations.InstructionChangesOnlyWhatItsRuleWrites := by
  intro i s t hx
  obtain ⟨hstorage, hsame⟩ := exec_frame hx
  exact ⟨hsame, hstorage, exec_keepsLatchOrFaults hx⟩

/-- Settles O21: the rule of these forms writes PC and x[r]. -/
theorem registerResultFrame : Obligations.RegisterResultFrame := by
  intro i r s t hi hx
  have hstorage := (exec_frame hx).1
  have hsame := exec_same hx (writes_of_resultOnlyIn s hi)
  exact ⟨fun g hg => hsame (.gpr g.index) (by simp [hg]) g rfl, hsame .sp (by simp),
    hstorage.f_eq (hsame .zero (by simp)) (hsame .carry (by simp)), hstorage.st_eq (hsame .halt (by simp)),
    fun a => hsame (.mem a) (by simp), hstorage.cfg, exec_keepsLatchOrFaults hx⟩

/-- Settles O22: the rule of ADD and ADC writes PC, x[r] and CARRY, that of CMP writes PC and ZERO. -/
theorem flagWriterFrame : Obligations.FlagWriterFrame := by
  intro i r s t hx
  have hstorage := (exec_frame hx).1
  refine ⟨fun hi => ?_, fun hi => ?_⟩
  · have hw : Instr.writes i s = [.pc, .gpr r, .carry] := by
      rcases hi with ⟨_, rfl⟩ | ⟨_, rfl⟩ | ⟨_, rfl⟩ | ⟨_, rfl⟩ <;> rfl
    have hsame := exec_same hx hw
    exact ⟨fun g hg => hsame (.gpr g.index) (by simp [hg]) g rfl, hstorage.f_but_carry (hsame .zero (by simp)),
      hsame .sp (by simp), hstorage.st_eq (hsame .halt (by simp)), fun a => hsame (.mem a) (by simp), hstorage.cfg,
      exec_keepsLatchOrFaults hx⟩
  · have hw : Instr.writes i s = [.pc, .zero] := by rcases hi with ⟨_, rfl⟩ | ⟨_, rfl⟩ <;> rfl
    have hsame := exec_same hx hw
    exact ⟨fun g => hsame (.gpr g.index) (by simp) g rfl, hstorage.f_but_zero (hsame .carry (by simp)),
      hsame .sp (by simp), hstorage.st_eq (hsame .halt (by simp)), fun a => hsame (.mem a) (by simp), hstorage.cfg,
      exec_keepsLatchOrFaults hx⟩

/-- Settles O23: the rule of STR writes PC and the byte at the effective address. -/
theorem storeFrame : Obligations.StoreFrame := by
  intro i r addr s t hi hx
  have hstorage := (exec_frame hx).1
  have hsame := exec_same hx (writes_of_addressIs hi)
  exact ⟨fun a ha => hsame (.mem a) (by simp [ha]), fun g => hsame (.gpr g.index) (by simp) g rfl, hsame .sp (by simp),
    hstorage.f_eq (hsame .zero (by simp)) (hsame .carry (by simp)), hstorage.st_eq (hsame .halt (by simp)),
    hstorage.cfg, exec_keepsLatchOrFaults hx⟩

end Sys2Proof.Claims

/-! PROOFS. MOV, LDR, STR and LHL complete with the result their rules give (41_data_transfer.md R130 to R133), and the frames
of LHL, JMP, JZ, NOP and HLT. -/

namespace Sys2Proof.Machine

open Sys2Proof.Claims

/-! ### Effects of MOV, LDR and STR on existing registers -/

theorem State.mov_operand {s : State} (g : Gpr) {src : Source} {v : Byte} (hv : s.operand src = .ok v) :
    s.mov g.index src = .ok (s.setGpr g v) := by
  simp only [State.mov, hv, State.writeReg_index, ok_bind]

theorem State.ldr_backed {s : State} (g : Gpr) {addr : Address} (h : s.backed (s.ea addr) = true) :
    s.ldr g.index addr = .ok (s.setGpr g (s.byte (s.ea addr))) := by
  simp only [State.ldr, State.memRead_backed h, State.writeReg_index, ok_bind]

theorem State.str_backed {s : State} (g : Gpr) {addr : Address} (h : s.backed (s.ea addr) = true) :
    s.str g.index addr = .ok (s.setByte (s.ea addr) (s.gpr g)) := by
  simp only [State.str, State.readReg_index, State.memWrite_backed _ h, ok_bind]

/-! ### Effects that cannot fault -/

/-- The next state of an instruction whose effect succeeds is that effect. -/
theorem next_eq_of_effect_ok {i : Instr} {s t u : State} (he : effect i s = .ok u) (hx : exec i s = .next t) : t = u := by
  rw [exec_of_effect_ok he] at hx
  exact (Host.Outcome.next.inj hx).symm

/-- The two writes of LHL change L and H alone. -/
theorem setGpr_L_setGpr_H_keeps (s : State) (lo hi : Byte) :
    (∀ g, g ≠ .L → g ≠ .H → ((s.setGpr .L lo).setGpr .H hi).gpr g = s.gpr g) ∧
      ((s.setGpr .L lo).setGpr .H hi).f = s.f ∧ KeepsRest s ((s.setGpr .L lo).setGpr .H hi) :=
  ⟨fun _ hL hH => (State.setGpr_gpr_other _ hi hH).trans (s.setGpr_gpr_other lo hL), rfl, rfl, rfl, rfl, rfl,
    ⟨rfl, rfl⟩, rfl⟩

/-- JZ, taken or not, is a write of PC. -/
theorem State.jz_eq_setPc (s : State) (addr : Address) :
    s.jz addr = s.setPc (if s.zero then s.pc else s.ea addr) := by
  unfold State.jz
  split <;> rfl

/-- The effect of a jump in any form is a write of PC. -/
theorem effect_jump {i : Instr} (s : State)
    (h : (∃ a, i = .jmpAbs a) ∨ i = .jmpHl ∨ (∃ a, i = .jzAbs a) ∨ i = .jzHl) :
    effect i s = .ok (s.setPc (nextPc i s)) := by
  rcases h with ⟨a, rfl⟩ | rfl | ⟨a, rfl⟩ | rfl
  · rfl
  · rfl
  · exact congrArg Except.ok (s.jz_eq_setPc (.abs a))
  · exact congrArg Except.ok (s.jz_eq_setPc .hl)

end Sys2Proof.Machine

namespace Sys2Proof.Claims

open Sys2Proof Sys2Proof.Machine

/-- Settles O25: the effect of each of these forms is a write of L and H, of PC, of nothing or of HALT, and cannot fail. -/
theorem lhlAndControlFrame : Obligations.LhlAndControlFrame := by
  intro i s t hx
  refine ⟨?_, fun hi => ?_, ?_, ?_⟩
  · rintro ⟨lo, hi, rfl⟩
    obtain rfl := next_eq_of_effect_ok rfl hx
    exact setGpr_L_setGpr_H_keeps s lo hi
  · obtain rfl := next_eq_of_effect_ok (effect_jump s hi) hx
    exact ⟨s.setPc_gpr _, rfl, rfl, rfl, rfl, ⟨rfl, rfl⟩, rfl⟩
  · rintro rfl
    exact next_eq_of_effect_ok rfl hx
  · rintro rfl
    obtain rfl := next_eq_of_effect_ok rfl hx
    exact ⟨s.setHalt_gpr true, rfl, rfl, rfl, rfl, ⟨rfl, rfl⟩, rfl, fun _ => s.setHalt_st_other true⟩

/-- Settles O26: the operand of either form is `v`, and the write of x[r] changes that register alone. -/
theorem movLoadsTheOperand : Obligations.MovLoadsTheOperand := by
  intro s g i v hi
  have he : effect i s = .ok (s.setGpr g v) := by
    rcases hi with rfl | ⟨k, rfl, rfl⟩
    · exact State.mov_operand g (s.operand_imm v)
    · exact State.mov_operand g (s.operand_reg k)
  exact ⟨_, exec_of_effect_ok he, changesOnlyGpr_setGpr s g v⟩

/-- Settles O27: the read at the effective address passes the check, and the write of x[r] changes that register alone. -/
theorem ldrLoadsTheByte : Obligations.LdrLoadsTheByte := by
  intro s g i addr hi hin
  have hb : s.backed addr = true := State.backed_eq_true hin
  have he : effect i s = .ok (s.setGpr g (s.byte addr)) := by
    rcases hi with ⟨rfl, -⟩ | ⟨rfl, rfl⟩
    · exact State.ldr_backed g hb
    · exact State.ldr_backed g hb
  exact ⟨_, exec_of_effect_ok he, changesOnlyGpr_setGpr s g _⟩

/-- Settles O28: the write at the effective address passes the check, and it changes that byte alone. -/
theorem strStoresTheRegister : Obligations.StrStoresTheRegister := by
  intro s g i addr hwf hi hin
  have hb : s.backed addr = true := State.backed_eq_true hin
  have he : effect i s = .ok (s.setByte addr (s.gpr g)) := by
    rcases hi with ⟨rfl, -⟩ | ⟨rfl, rfl⟩
    · exact State.str_backed g hb
    · exact State.str_backed g hb
  exact ⟨_, exec_of_effect_ok he, s.setByte_byte_same addr _ hwf, fun _ => s.setByte_byte_other _,
    s.setByte_gpr addr _, rfl, rfl, rfl, rfl, ⟨rfl, rfl⟩, rfl⟩

/-- Settles O29: the two registers LHL writes exist, and HL is read from them. -/
theorem lhlLoadsBothBytes : Obligations.LhlLoadsBothBytes := by
  intro s lo hi
  have hhl : ((s.setGpr .L lo).setGpr .H hi).hl.toNat = 256 * hi.toNat + lo.toNat :=
    (State.hl_toNat _).trans (Nat.add_comm ..)
  exact ⟨_, exec_of_effect_ok rfl, rfl, rfl, hhl, setGpr_L_setGpr_H_keeps s lo hi⟩

end Sys2Proof.Claims

/-! PROOFS. PUSH and POP (42_stack.md R150 to R152): their frames, where they complete and with what, and a POP after a PUSH. -/

namespace Sys2Proof.Machine

/-! ### Effects of PUSH and POP that complete -/

theorem State.push_backed {s : State} {src : Source} {v : Byte} (hv : s.operand src = .ok v)
    (ho : s.cfg.overflow = .wrap ∨ s.sp ≠ 0x0000#16) (hb : s.backed (s.sp - 1#16) = true) :
    s.push src = .ok ((s.setSp (s.sp - 1#16)).setByte (s.sp - 1#16) v) := by
  simp only [State.push, hv, Config.decrement_ok ho, ok_bind]
  exact State.memWrite_backed v hb

theorem effect_pop_backed {s : State} (g : Gpr) (hb : s.backed s.sp = true)
    (ho : s.cfg.overflow = .wrap ∨ s.sp ≠ 0xFFFF#16) :
    effect (.pop g.index) s = .ok ((s.setGpr g (s.byte s.sp)).setSp (s.sp + 1#16)) := by
  simp only [effect, State.memRead_backed hb, State.writeReg_index, State.setGpr_sp, Config.increment_ok ho, ok_bind]

theorem writes_of_push {i : Instr} {r : RegIx} (s : State) (h : (∃ v, i = .pushImm v) ∨ i = .pushReg r) :
    Instr.writes i s = .pc :: .sp :: s.pushLoc := by
  rcases h with ⟨v, rfl⟩ | rfl <;> rfl

end Sys2Proof.Machine

namespace Sys2Proof.Claims

open Sys2Proof Sys2Proof.Machine

theorem OperandIs.effect_push_backed {s : State} {i : Instr} {v : Byte} (h : OperandIs s .pushImm .pushReg i v)
    (ho : s.cfg.overflow = .wrap ∨ s.sp ≠ 0x0000#16) (hb : s.backed (s.sp - 1#16) = true) :
    effect i s = .ok ((s.setSp (s.sp - 1#16)).setByte (s.sp - 1#16) v) := by
  rcases h with rfl | ⟨k, rfl, rfl⟩
  · exact State.push_backed (s.operand_imm v) ho hb
  · exact State.push_backed (s.operand_reg k) ho hb

/-- Settles O24: the rule of PUSH writes PC, SP and the byte at the decremented SP, where there is one; that of POP writes PC,
x[r] and SP. -/
theorem stackFrame : Obligations.StackFrame := by
  intro i r s t hx
  have hstorage := (exec_frame hx).1
  refine ⟨fun hi => ?_, fun hi => ?_⟩
  · have hsame := exec_same hx (writes_of_push s hi)
    exact ⟨fun addr hd a ha => hsame (.mem a) (by simp [hd, ha]), fun e hd a => hsame (.mem a) (by simp [hd]),
      fun g => hsame (.gpr g.index) (by simp) g rfl, hstorage.f_eq (hsame .zero (by simp)) (hsame .carry (by simp)),
      hstorage.st_eq (hsame .halt (by simp)), hstorage.cfg, exec_keepsLatchOrFaults hx⟩
  · have hw : Instr.writes i s = [.pc, .gpr r, .sp] := hi ▸ rfl
    have hsame := exec_same hx hw
    exact ⟨fun a => hsame (.mem a) (by simp), fun g hg => hsame (.gpr g.index) (by simp [hg]) g rfl,
      hstorage.f_eq (hsame .zero (by simp)) (hsame .carry (by simp)), hstorage.st_eq (hsame .halt (by simp)),
      hstorage.cfg, exec_keepsLatchOrFaults hx⟩

/-- Settles O30: the decrement of SP and the check of the write both pass, and the write changes the byte at the new SP
alone. -/
theorem pushStoresBelowSp : Obligations.PushStoresBelowSp := by
  intro s i v hwf hi ho hin
  have he := hi.effect_push_backed ho (State.backed_eq_true hin)
  exact ⟨_, exec_of_effect_ok he, rfl, State.setByte_byte_same _ _ v hwf, fun _ => State.setByte_byte_other _ v,
    State.setByte_gpr _ _ v, rfl, rfl, rfl, ⟨rfl, rfl⟩, rfl⟩

/-- Settles O31: the check of the read and the increment of SP both pass, and the write of x[r] changes that register
alone. -/
theorem popLoadsTheByteAtSp : Obligations.PopLoadsTheByteAtSp := by
  intro s g hin ho
  have he := effect_pop_backed g (State.backed_eq_true hin) ho
  obtain ⟨hg, hother, hf, hpc, -, hst, hmem, hlatch, hcfg⟩ := changesOnlyGpr_setGpr s g (s.byte s.sp)
  exact ⟨_, exec_of_effect_ok he, rfl, hg, hother, hpc, hf, hst, hmem, hlatch, hcfg⟩

/-- Settles O48: the PUSH leaves its operand at SP - 1, which is backed and, where an advance of SP can fault, is not 0xFFFF;
so the POP completes. -/
theorem pushThenPopMovesTheValue : Obligations.PushThenPopMovesTheValue := by
  intro s i v g hwf hi ho hin
  obtain ⟨t, hx, hsp, hbyte, -, -, -, -, -, -, hcfg⟩ := pushStoresBelowSp s i v hwf hi ho hin
  refine ⟨t, hx, fun u hucfg husp hubyte => ?_⟩
  have hsp' : u.sp = s.sp - 1#16 := husp.trans hsp
  have hcfg' : u.cfg = s.cfg := hucfg.trans hcfg
  have hin' : u.sp.toNat < u.cfg.memSize := by rwa [hsp', hcfg']
  have ho' : u.cfg.overflow = .wrap ∨ u.sp ≠ 0xFFFF#16 := by
    rw [hsp', hcfg']
    exact ho.imp_right (by bv_omega)
  obtain ⟨w, hw, hwsp, hwg, -⟩ := popLoadsTheByteAtSp u g hin' ho'
  refine ⟨w, hw, ?_, ?_⟩
  · calc w.gpr g = u.byte u.sp := hwg
      _ = t.byte t.sp := by rw [husp, hubyte]
      _ = v := by rw [hsp, hbyte]
  · calc w.sp = s.sp - 1#16 + 1#16 := by rw [hwsp, hsp']
      _ = s.sp := BitVec.sub_add_cancel ..

end Sys2Proof.Claims

/-! PROOFS. JMP and JZ (43_branch.md R160, R161): their targets, JZ after CMP, and a `run()` of a jump to its own address
(46_sequencer_and_host.md R213). -/

namespace Sys2Proof.Machine

/-! ### JZ and CMP -/

/-- JZ against its name: the jump is taken where ZERO is clear (C3). -/
theorem State.jz_eq_setPc_of_clear (s : State) (addr : Address) :
    s.jz addr = s.setPc (if s.zero = false then s.ea addr else s.pc) := by
  rw [State.jz_eq_setPc]
  cases s.zero <;> rfl

/-- The wrapped difference of two bytes is 0 exactly when they are equal. -/
theorem differenceZero_difference (d v : Byte) : differenceZero (difference d v) = decide (d = v) := by
  rw [differenceZero, difference, beq_eq_decide]
  exact decide_eq_decide.mpr sub_eq_zero

/-! ### The loop of `run()` -/

/-- `step()` reports OK of an instruction that completes. -/
theorem State.stepReply_of_completes {s t : State} (hrun : s.Runnable) (h : step s = .next t) (ht : t.faulted = false) :
    s.stepReply = (.ok, t) := by
  simp [State.stepReply, hrun.1, hrun.2, h, ht]

/-- The loop goes on from an instruction that completes and leaves HALT clear. -/
theorem State.runLoop_succ_of_runnable {s t : State} (n : Nat) (hrun : s.Runnable) (h : step s = .next t)
    (ht : t.Runnable) : State.runLoop (n + 1) s = State.runLoop n t := by
  simp [State.runLoop, State.stepReply_of_completes hrun h ht.1, ht.2]

/-- The loop never ends in a state that a step leaves as it is. -/
theorem State.runLoop_eq_none {s : State} (hrun : s.Runnable) (h : step s = .next s) (n : Nat) :
    State.runLoop n s = none := by
  induction n with
  | zero => rfl
  | succ n ih => rw [State.runLoop_succ_of_runnable n hrun h hrun, ih]

theorem State.setHalt_false_runnable {s : State} (h : s.faulted = false) : (s.setHalt false).Runnable :=
  ⟨h, s.setHalt_halt false⟩

open Sys2Proof.Claims in
/-- A step that runs a jump to its own address leaves the state as it is: PC, past the jump's bytes, is set back. -/
theorem step_jmpAbs_self {s : State} (hrun : s.Runnable) (hi : instrAt s = .jmpAbs s.pc) (h : Fetchable s 3) :
    step s = .next s := by
  rw [step_instrAt hrun hi h]
  exact exec_of_effect_ok rfl

end Sys2Proof.Machine

namespace Sys2Proof.Claims

open Sys2Proof Sys2Proof.Machine

/-- CMP of a register that exists, in either form: ZERO says whether it holds the operand's value. -/
theorem OperandIs.effect_compare {s : State} {g : Gpr} {i : Instr} {v : Byte}
    (h : OperandIs s (.cmpImm g.index) (.cmpReg g.index) i v) :
    effect i s = .ok (s.setZero (decide (s.gpr g = v))) := by
  rw [← differenceZero_difference]
  rcases h with rfl | ⟨k, rfl, rfl⟩
  · exact State.compare_operand g (s.operand_imm v)
  · exact State.compare_operand g (s.operand_reg k)

/-- Settles O32: the effect of JMP and JZ in either form is a write of PC, which cannot fail. -/
theorem jumpsSetPc : Obligations.JumpsSetPc := by
  intro s i addr
  constructor
  · rintro (⟨rfl, -⟩ | ⟨rfl, rfl⟩)
    · exact exec_of_effect_ok rfl
    · exact exec_of_effect_ok rfl
  · rintro (⟨rfl, -⟩ | ⟨rfl, rfl⟩)
    · exact exec_of_effect_ok (congrArg Except.ok (s.jz_eq_setPc_of_clear (.abs addr)))
    · exact exec_of_effect_ok (congrArg Except.ok (s.jz_eq_setPc_of_clear .hl))

/-- Settles O51: CMP sets ZERO exactly on equality, and JZ jumps where ZERO is clear. -/
theorem jzAfterCmpBranchesOnInequality : Obligations.JzAfterCmpBranchesOnInequality := by
  intro s g i v target pc hi
  refine ⟨_, exec_of_effect_ok hi.effect_compare, ?_⟩
  rw [(jumpsSetPc _ _ target).2 (.inl ⟨rfl, rfl⟩)]
  by_cases heq : s.gpr g = v <;> simp [heq]

/-- Settles O55: with HALT cleared the state is one that its jump leaves as it is, so the loop never ends. -/
theorem jumpToItselfNeverEnds : Obligations.JumpToItselfNeverEnds := by
  intro s n hf hfetch hi
  have hrun := State.setHalt_false_runnable hf
  have hstep : step (s.setHalt false) = .next (s.setHalt false) := step_jmpAbs_self hrun hi (hfetch.congr rfl rfl)
  simp [State.run, hf, State.runLoop_eq_none hrun hstep n]

end Sys2Proof.Claims

/-! PROOFS. ADD, ADC, CMP, SUB, NAND and NOR complete with the result and the flag their rules give (44_alu.md R170 to R177),
and ADC against ADD. -/

namespace Sys2Proof.Machine

open Sys2Proof.Claims

/-! ### ADD and ADC on existing registers -/

/-- The state after an addition into an existing register (R172, R173). -/
def State.added (s : State) (g : Gpr) (v : Byte) (carryIn : Bool) : State :=
  (s.setGpr g (BitVec.ofNat 8 (exactSum (s.gpr g) v carryIn))).setCarry (sumCarry (exactSum (s.gpr g) v carryIn))

theorem State.addWith_operand {s : State} (g : Gpr) {src : Source} {v : Byte} (carryIn : Bool)
    (hv : s.operand src = .ok v) : s.addWith g.index src carryIn = .ok (s.added g v carryIn) := by
  simp only [State.addWith, hv, State.readReg_index, State.writeReg_index, ok_bind, State.added]

section

variable (s : State) (g : Gpr) (v : Byte) (carryIn : Bool)

theorem State.added_gpr_same : (s.added g v carryIn).gpr g = BitVec.ofNat 8 (exactSum (s.gpr g) v carryIn) := by
  rw [State.added, State.setCarry_gpr, State.setGpr_gpr_same]

theorem State.added_gpr_toNat :
    ((s.added g v carryIn).gpr g).toNat = ((s.gpr g).toNat + v.toNat + carryIn.toNat) % 256 := by
  rw [State.added_gpr_same, BitVec.toNat_ofNat, exactSum]

theorem State.added_gpr_other {k : Gpr} (h : k ≠ g) : (s.added g v carryIn).gpr k = s.gpr k := by
  rw [State.added, State.setCarry_gpr, State.setGpr_gpr_other _ _ h]

theorem State.added_carry :
    (s.added g v carryIn).carry = decide ((s.gpr g).toNat + v.toNat + carryIn.toNat > 255) :=
  State.setCarry_carry _ _

theorem State.added_f_other {n : Nat} (h : n ≠ 1) : (s.added g v carryIn).f.getLsbD n = s.f.getLsbD n := by
  rw [State.added, State.setCarry_f_other _ _ h, State.setGpr_f]

theorem State.added_keepsRest : KeepsRest s (s.added g v carryIn) := by
  obtain ⟨-, -, -, hrest⟩ := changesOnlyGpr_setGpr s g (BitVec.ofNat 8 (exactSum (s.gpr g) v carryIn))
  exact hrest

/-- The carry-in adds one to the result, modulo 256. -/
theorem State.added_true_gpr : (s.added g v true).gpr g = (s.added g v false).gpr g + 1#8 := by
  rw [State.added_gpr_same, State.added_gpr_same, ← BitVec.ofNat_add]
  rfl

end

/-! ### The results of SUB, NAND and NOR as numbers and bits -/

theorem difference_toNat (d v : Byte) : (difference d v).toNat = (d.toNat + 256 - v.toNat) % 256 := by
  rw [difference, BitVec.toNat_sub]
  omega

theorem nandByte_getLsbD (d v : Byte) {n : Nat} (h : n < 8) :
    (nandByte d v).getLsbD n = !(d.getLsbD n && v.getLsbD n) := by
  simp [nandByte, h]

theorem norByte_getLsbD (d v : Byte) {n : Nat} (h : n < 8) :
    (norByte d v).getLsbD n = !(d.getLsbD n || v.getLsbD n) := by
  simp [norByte, h]

end Sys2Proof.Machine

namespace Sys2Proof.Claims

open Sys2Proof Sys2Proof.Machine

/-- Both forms of an instruction whose effect is an operation of its operand give what the operation gives for a source that
holds `v` (40_execution_model.md R115). -/
theorem OperandIs.exec_next {s t : State} {imm : Byte → Instr} {reg : RegIx → Instr} {i : Instr} {v : Byte}
    (h : OperandIs s imm reg i v) (op : Source → Except OutOfBounds State)
    (himm : ∀ b, effect (imm b) s = op (.imm b)) (hreg : ∀ sel, effect (reg sel) s = op (.reg sel))
    (hop : ∀ src, s.operand src = .ok v → op src = .ok t) : exec i s = .next t := by
  rcases h with rfl | ⟨k, rfl, rfl⟩
  · exact exec_of_effect_ok ((himm v).trans (hop _ (s.operand_imm v)))
  · exact exec_of_effect_ok ((hreg k.index).trans (hop _ (s.operand_reg k)))

section

variable {s : State} {g : Gpr} {i : Instr} {v : Byte}

theorem OperandIs.exec_add (h : OperandIs s (.addImm g.index) (.addReg g.index) i v) :
    exec i s = .next (s.added g v false) :=
  h.exec_next (s.addWith g.index · false) (fun _ => rfl) (fun _ => rfl) fun _ => State.addWith_operand g false

theorem OperandIs.exec_adc (h : OperandIs s (.adcImm g.index) (.adcReg g.index) i v) :
    exec i s = .next (s.added g v s.carry) :=
  h.exec_next (s.addWith g.index · s.carry) (fun _ => rfl) (fun _ => rfl) fun _ => State.addWith_operand g s.carry

/-- Both forms of SUB, NAND and NOR change x[r] alone, to what their operation gives. -/
theorem OperandIs.exec_combine {imm : Byte → Instr} {reg : RegIx → Instr} (h : OperandIs s imm reg i v)
    (op : Byte → Byte → Byte) (himm : ∀ b, effect (imm b) s = s.combine g.index (.imm b) op)
    (hreg : ∀ sel, effect (reg sel) s = s.combine g.index (.reg sel) op) :
    ∃ t, exec i s = .next t ∧ ChangesOnlyGpr g (op (s.gpr g) v) s t :=
  ⟨_, h.exec_next (s.combine g.index · op) himm hreg fun _ => State.combine_operand g op, changesOnlyGpr_setGpr s g _⟩

end

/-- Settles O33: the next state is the addition with no carry-in. -/
theorem addWrapsAndSetsCarry : Obligations.AddWrapsAndSetsCarry := by
  intro s g i v hi
  exact ⟨_, hi.exec_add, s.added_gpr_toNat g v false, s.added_carry g v false, fun _ => s.added_f_other g v false,
    fun _ => s.added_gpr_other g v false, s.added_keepsRest g v false⟩

/-- Settles O34: the next state is the addition with the old CARRY as carry-in. -/
theorem adcAddsTheCarryIn : Obligations.AdcAddsTheCarryIn := by
  intro s g i v hi
  exact ⟨_, hi.exec_adc, s.added_gpr_toNat g v _, s.added_carry g v _, fun _ => s.added_f_other g v _,
    fun _ => s.added_gpr_other g v _, s.added_keepsRest g v _⟩

/-- Settles O35: the wrapped difference is 0 exactly when the operands are equal, and the write of ZERO changes that bit
alone. -/
theorem cmpSetsZeroOnEquality : Obligations.CmpSetsZeroOnEquality := by
  intro s g i v hi
  exact ⟨_, exec_of_effect_ok hi.effect_compare, by rw [State.setZero_zero, decide_eq_true_iff], s.setZero_gpr _,
    fun _ => s.setZero_f_other _, rfl, rfl, rfl, rfl, ⟨rfl, rfl⟩, rfl⟩

/-- Settles O36: the write of the wrapped difference changes x[r] alone. -/
theorem subWrapsWithoutFlags : Obligations.SubWrapsWithoutFlags := by
  intro s g i v hi
  obtain ⟨t, hx, hchange⟩ := hi.exec_combine difference (fun _ => rfl) (fun _ => rfl)
  exact ⟨t, _, hx, hchange, difference_toNat _ _⟩

/-- Settles O37: the write of the complemented byte changes x[r] alone. -/
theorem nandAndNorComplementWithoutFlags : Obligations.NandAndNorComplementWithoutFlags := by
  intro s g i v
  refine ⟨fun hi => ?_, fun hi => ?_⟩
  · obtain ⟨t, hx, hchange⟩ := hi.exec_combine nandByte (fun _ => rfl) (fun _ => rfl)
    exact ⟨t, _, hx, hchange, fun _ => nandByte_getLsbD _ _⟩
  · obtain ⟨t, hx, hchange⟩ := hi.exec_combine norByte (fun _ => rfl) (fun _ => rfl)
    exact ⟨t, _, hx, hchange, fun _ => norByte_getLsbD _ _⟩

section

variable {s : State} {g : Gpr} {v : Byte} {add adc : Instr}

/-- With CARRY clear an ADC answers what the ADD of the same operand answers. -/
theorem exec_adc_eq_exec_add (hadd : OperandIs s (.addImm g.index) (.addReg g.index) add v)
    (hadc : OperandIs s (.adcImm g.index) (.adcReg g.index) adc v) (hc : s.carry = false) :
    exec adc s = exec add s := by
  rw [hadc.exec_adc, hadd.exec_add, hc]

/-- With CARRY set the result of an ADC is one more than that of the ADD of the same operand. -/
theorem exec_adc_succ_exec_add (hadd : OperandIs s (.addImm g.index) (.addReg g.index) add v)
    (hadc : OperandIs s (.adcImm g.index) (.adcReg g.index) adc v) (hc : s.carry = true) :
    ∃ t u, exec add s = .next t ∧ exec adc s = .next u ∧ u.gpr g = t.gpr g + 1#8 :=
  ⟨_, _, hadd.exec_add, hadc.exec_adc, hc ▸ s.added_true_gpr g v⟩

end

/-- Settles O52: the two additions differ in their carry-in alone, in both forms. -/
theorem adcIsAddPlusTheCarry : Obligations.AdcIsAddPlusTheCarry := by
  intro s g v
  refine ⟨fun hc => ⟨?_, fun k => ?_⟩, fun hc => ?_, fun hc k => ?_⟩
  · exact exec_adc_eq_exec_add (.inl rfl) (.inl rfl) hc
  · exact exec_adc_eq_exec_add (.inr ⟨k, rfl, rfl⟩) (.inr ⟨k, rfl, rfl⟩) hc
  · exact exec_adc_succ_exec_add (.inl rfl) (.inl rfl) hc
  · exact exec_adc_succ_exec_add (.inr ⟨k, rfl, rfl⟩) (.inr ⟨k, rfl, rfl⟩) hc

end Sys2Proof.Claims

/-! PROOFS. NOP and HLT complete in every state (45_system.md R200, R201). -/

namespace Sys2Proof.Claims

open Sys2Proof Sys2Proof.Machine

/-- Settles O38: the effects of both succeed without an access, and what HLT leaves unchanged is its frame (O25). -/
theorem nopAndHltComplete : Obligations.NopAndHltComplete := by
  intro s
  have hhlt : exec .hlt s = .next (s.setHalt true) := exec_of_effect_ok rfl
  obtain ⟨-, -, -, hframe⟩ := lhlAndControlFrame .hlt s _ hhlt
  obtain ⟨hg, hpc, hsp, hf, hmem, hlatch, hcfg, hst⟩ := hframe rfl
  exact ⟨exec_of_effect_ok rfl, _, hhlt, s.setHalt_halt true, hst, hg, hpc, hsp, hf, hmem, hlatch, hcfg⟩

end Sys2Proof.Claims

/-! PROOFS. The sequencer (46_sequencer_and_host.md R210 to R215): what `step()` reports, and the one end of a `run()`. -/

namespace Sys2Proof.Machine

/-! ### `step()` (R210, R211) -/

/-- `Execute1()` always answers a next state: a fault of its fetch or of its instruction is one too. -/
theorem State.execute1_total (s : State) : ∃ t, s.execute1 = .next t := by
  rcases s.execute1_cases with ⟨e, -, h⟩ | ⟨op, operands, e, -, -, -, h⟩ | ⟨op, operands, u, -, -, -, h⟩
  · exact ⟨_, h⟩
  · exact ⟨_, h⟩
  · exact h ▸ exec_total _ u

theorem State.stepReply_faulted {s : State} (h : s.faulted = true) : s.stepReply = (.fault s.record, s) := by
  simp [State.stepReply, h]

theorem State.stepReply_halted {s : State} (hf : s.faulted = false) (hh : s.halt = true) :
    s.stepReply = (.halted, s) := by
  simp [State.stepReply, hf, hh]

theorem State.stepReply_runnable {s t : State} (hrun : s.Runnable) (h : s.execute1 = .next t) :
    s.stepReply = if t.faulted then (.fault t.record, t) else (.ok, t) := by
  simp [State.stepReply, hrun.1, hrun.2, step_runnable hrun, h]

/-- On a core that is not faulted `step()` leaves the state `step` answers, and reports FAULT exactly if that is faulted. -/
theorem State.stepReply_next {s : State} (hf : s.faulted = false) :
    ∃ t, step s = .next t ∧
      ((t.faulted = true ∧ s.stepReply = (.fault t.record, t)) ∨
        (t.faulted = false ∧ (s.stepReply = (.ok, t) ∨ s.stepReply = (.halted, t)))) := by
  cases hh : s.halt with
  | true => exact ⟨s, step_halted hf hh, .inr ⟨hf, .inr (State.stepReply_halted hf hh)⟩⟩
  | false =>
    obtain ⟨t, ht⟩ := s.execute1_total
    have hreply := State.stepReply_runnable ⟨hf, hh⟩ ht
    refine ⟨t, (step_runnable ⟨hf, hh⟩).trans ht, ?_⟩
    cases htf : t.faulted <;> simp [hreply, htf]

/-! ### Runs of steps -/

theorem Steps.head {s t u : State} (h : step s = .next t) (htu : Steps t u) : Steps s u := by
  induction htu with
  | here => exact .more (.here s) h
  | more _ hstep ih => exact .more ih hstep

/-! ### `run()` (R212, R215) -/

/-- The end that a `run()` reports is the one its state shows (R215). -/
def RunReply.Shows (r : RunReply) (t : State) : Prop :=
  match r with
  | .done => t.halt = true ∧ t.faulted = false
  | .fault record => t.faulted = true ∧ t.record = record

/-- One turn of the loop: a step, after which the loop ends with what the state shows, or goes on with one step less. -/
theorem State.runLoop_turn {s : State} (hf : s.faulted = false) :
    ∃ t, step s = .next t ∧
      ((∃ r, r.Shows t ∧ ∀ n, State.runLoop (n + 1) s = some (r, t)) ∨
        (t.faulted = false ∧ ∀ n, State.runLoop (n + 1) s = State.runLoop n t)) := by
  obtain ⟨t, hstep, ⟨htf, hreply⟩ | ⟨htf, hreply⟩⟩ := State.stepReply_next hf
  · exact ⟨t, hstep, .inl ⟨.fault t.record, ⟨htf, rfl⟩, fun n => by simp [State.runLoop, hreply]⟩⟩
  · have hturn : ∀ n, State.runLoop (n + 1) s = if t.halt then some (.done, t) else State.runLoop n t := by
      intro n
      rcases hreply with hreply | hreply <;> simp [State.runLoop, hreply]
    refine ⟨t, hstep, ?_⟩
    cases hh : t.halt with
    | true => exact .inl ⟨.done, ⟨hh, htf⟩, fun n => by simp [hturn, hh]⟩
    | false => exact .inr ⟨htf, fun n => by simp [hturn, hh]⟩

/-- A loop that ends has taken steps to a state that shows the end it reports. -/
theorem State.runLoop_ends {n : Nat} {s t : State} {r : RunReply} (hf : s.faulted = false)
    (h : State.runLoop n s = some (r, t)) : Steps s t ∧ r.Shows t := by
  induction n generalizing s with
  | zero => cases h
  | succ n ih =>
    obtain ⟨u, hstep, ⟨q, hshows, hend⟩ | ⟨huf, hrest⟩⟩ := State.runLoop_turn hf
    · cases (hend n).symm.trans h
      exact ⟨.more (.here s) hstep, hshows⟩
    · obtain ⟨hsteps, hshows⟩ := ih huf ((hrest n).symm.trans h)
      exact ⟨hsteps.head hstep, hshows⟩

/-- A larger bound does not change the end of a loop. -/
theorem State.runLoop_mono {n m : Nat} {s : State} {x : RunReply × State} (hf : s.faulted = false) (hnm : n ≤ m)
    (h : State.runLoop n s = some x) : State.runLoop m s = some x := by
  induction n generalizing s m with
  | zero => cases h
  | succ n ih =>
    obtain ⟨m, rfl⟩ : ∃ k, m = k + 1 := Nat.exists_eq_add_one.mpr (by omega)
    obtain ⟨u, -, ⟨q, -, hend⟩ | ⟨huf, hrest⟩⟩ := State.runLoop_turn hf
    · rw [hend, ← hend n, h]
    · rw [hrest] at h ⊢
      exact ih huf (by omega) h

theorem State.run_faulted {s : State} (n : Nat) (h : s.faulted = true) : s.run n = some (.fault s.record, s) := by
  simp [State.run, h]

theorem State.run_eq_runLoop {s : State} (n : Nat) (h : s.faulted = false) :
    s.run n = State.runLoop n (s.setHalt false) := by
  simp [State.run, h]

/-- A `run()` that ends has taken steps from the state with HALT cleared to one that shows the end it reports. -/
theorem State.run_ends {n : Nat} {s t : State} {r : RunReply} (hf : s.faulted = false) (h : s.run n = some (r, t)) :
    Steps (s.setHalt false) t ∧ r.Shows t :=
  State.runLoop_ends (s := s.setHalt false) hf (State.run_eq_runLoop n hf ▸ h)

/-- A larger bound does not change the end of a `run()`. -/
theorem State.run_mono {n m : Nat} {s : State} {x : RunReply × State} (hf : s.faulted = false) (hnm : n ≤ m)
    (h : s.run n = some x) : s.run m = some x := by
  rw [State.run_eq_runLoop _ hf] at h ⊢
  exact State.runLoop_mono (s := s.setHalt false) hf hnm h

end Sys2Proof.Machine

namespace Sys2Proof.Claims

open Sys2Proof Sys2Proof.Machine

/-- Settles O13: the two early returns of `step`. -/
theorem faultedAndHaltedStepsDoNothing : Obligations.FaultedAndHaltedStepsDoNothing :=
  fun _ => ⟨step_faulted, step_halted⟩

/-- Settles O12: the two early returns, else what `Execute1()` answers, reported by its latch. -/
theorem stepReportsOneOfThreeOutcomes : Obligations.StepReportsOneOfThreeOutcomes := by
  intro s
  refine ⟨State.stepReply_faulted, State.stepReply_halted, fun hrun => ?_⟩
  obtain ⟨t, ht⟩ := s.execute1_total
  have hreply := State.stepReply_runnable hrun ht
  exact ⟨t, ht, fun htf => by simp [hreply, htf], fun htf => by simp [hreply, htf]⟩

/-- Settles O54: two ends are ends under the larger of their bounds, so they are one. -/
theorem runEndsInOneWay : Obligations.RunEndsInOneWay := by
  intro s t r n hrun hf
  obtain ⟨hsteps, hshows⟩ := State.run_ends hf hrun
  refine ⟨fun m hm => State.run_mono hf hm hrun, ?_, hsteps, by cases r <;> exact hshows⟩
  rintro u q ⟨k, hk⟩
  have hend := (State.run_mono hf (le_max_left k n) hk).symm.trans (State.run_mono hf (le_max_right k n) hrun)
  exact Prod.mk.inj (Option.some.inj hend)

end Sys2Proof.Claims

/-! PROOFS. Every host command keeps the invariant (46_sequencer_and_host.md R217 to R225). -/

namespace Sys2Proof.Machine

/-! ### Single updates -/

/-- The invariant speaks of the configuration, memory and the latch: a state that keeps configuration and latch, with its
memory in form, meets it. -/
theorem State.Inv.of_memory {s t : State} (h : s.Inv) (hcfg : t.cfg = s.cfg) (hf : t.faulted = s.faulted)
    (hr : t.record = s.record) (hmem : Memory.wf t.mem ∧ ∀ p ∈ t.mem, p.1 < s.cfg.memSize) : t.Inv where
  config := hcfg ▸ h.config
  memoryForm := hmem.1
  memoryBacked := hcfg ▸ hmem.2
  latchClear := by rw [hf, hr]; exact h.latchClear
  latchSet := by rw [hf, hr, hcfg]; exact h.latchSet

theorem State.setHalt_inv {s : State} (h : s.Inv) (v : Bool) : (s.setHalt v).Inv :=
  h.of_memory rfl rfl rfl ⟨h.memoryForm, h.memoryBacked⟩

theorem State.setDraws_inv {s : State} (h : s.Inv) (n : Nat) : (s.setDraws n).Inv :=
  h.of_memory rfl rfl rfl ⟨h.memoryForm, h.memoryBacked⟩

theorem State.setGpr_inv {s : State} (h : s.Inv) (g : Gpr) (v : Byte) : (s.setGpr g v).Inv :=
  h.of_memory (s.setGpr_cfg g v) (s.setGpr_faulted g v) (s.setGpr_record g v)
    (s.setGpr_mem g v ▸ ⟨h.memoryForm, h.memoryBacked⟩)

theorem State.setSpr_inv {s : State} (h : s.Inv) (r : Spr) (v : Word) : (s.setSpr r v).Inv := by
  cases r <;> exact h.of_memory rfl rfl rfl ⟨h.memoryForm, h.memoryBacked⟩

theorem State.setByte_inv {s : State} (h : s.Inv) {a : Word} (v : Byte) (ha : s.backed a = true) : (s.setByte a v).Inv :=
  h.of_memory rfl rfl rfl (setByte_memory v h.memoryForm h.memoryBacked ha)

/-! ### Operations of the port -/

theorem State.resetCommand_inv {s : State} (h : s.Inv) : s.resetCommand.Inv :=
  State.setDraws_inv (State.resetWith_inv h.config) s.draws

theorem State.placeBytes_inv {s : State} (h : s.Inv) (a : Word) (bs : List Byte) : (s.placeBytes a bs).Inv := by
  obtain ⟨hcfg, -, -, -, -, -, hf, hr⟩ := s.placeBytes_frame a bs
  exact h.of_memory hcfg hf hr (State.placeBytes_memory a bs h.memoryForm h.memoryBacked)

theorem State.loadPartly_inv {s : State} (h : s.Inv) (a : Word) (bs : List Byte) : (s.loadPartly a bs).Inv := by
  induction bs generalizing s a with
  | nil => exact h
  | cons b bs ih =>
    have hdraw := State.setDraws_inv h (s.draws + 1)
    rw [State.loadPartly]
    refine ih ?_ (a + 1#16)
    split
    next hb => exact State.setByte_inv hdraw b (Bool.and_eq_true_iff.mp hb).1
    next => exact hdraw

theorem State.load_inv {s t : State} (h : s.Inv) {start : Word} {bytes : List Byte} {answer : Except OutOfBounds Unit}
    (hl : s.load start bytes = (answer, t)) : t.Inv := by
  unfold State.load at hl
  split at hl <;> cases hl
  · exact State.loadPartly_inv h start bytes
  · exact State.placeBytes_inv h start bytes

theorem Steps.inv {s t : State} (hsteps : Steps s t) (h : s.Inv) : t.Inv := by
  induction hsteps with
  | here => exact h
  | more _ hstep ih => exact Claims.stepKeepsInvariant _ _ ih hstep

theorem State.stepReply_inv {s t : State} (h : s.Inv) {q : StepReply} (hq : s.stepReply = (q, t)) : t.Inv := by
  cases hf : s.faulted with
  | true =>
    cases (State.stepReply_faulted hf).symm.trans hq
    exact h
  | false =>
    obtain ⟨u, hstep, hreply⟩ := State.stepReply_next hf
    have hu := Claims.stepKeepsInvariant s u h hstep
    rcases hreply with ⟨-, hreply⟩ | ⟨-, hreply | hreply⟩ <;> cases hreply.symm.trans hq <;> exact hu

theorem State.run_inv {s t : State} (h : s.Inv) {n : Nat} {r : RunReply} (hrun : s.run n = some (r, t)) : t.Inv := by
  cases hf : s.faulted with
  | true =>
    cases (State.run_faulted n hf).symm.trans hrun
    exact h
  | false =>
    obtain ⟨hsteps, -⟩ := State.run_ends hf hrun
    exact hsteps.inv (State.setHalt_inv h false)

end Sys2Proof.Machine

namespace Sys2Proof.Claims

open Sys2Proof Sys2Proof.Machine

/-- Settles O4: each command by the lemma of the operation it performs; a read leaves the state as it is. -/
theorem commandsKeepInvariant : Obligations.CommandsKeepInvariant := by
  intro bound c s t r h hp
  cases c with
  | reset =>
    cases hp
    exact State.resetCommand_inv h
  | step =>
    simp only [State.perform] at hp
    split at hp <;> cases hp <;> exact State.stepReply_inv h ‹_›
  | run =>
    simp only [State.perform] at hp
    split at hp <;> cases hp <;> exact State.run_inv h ‹_›
  | writeGpr i v =>
    simp only [State.perform] at hp
    split at hp <;> cases hp
    · exact State.setGpr_inv h _ v
    · exact h
  | writeSpr i v =>
    simp only [State.perform] at hp
    split at hp <;> cases hp
    · exact State.setSpr_inv h _ v
    · exact h
  | writeMem a v =>
    simp only [State.perform] at hp
    split at hp <;> cases hp
    · exact State.setByte_inv h v ‹_›
    · exact h
  | load start bytes =>
    simp only [State.perform] at hp
    split at hp <;> cases hp <;> exact State.load_inv h ‹_›
  | readGpr | readSpr | readMem | dump =>
    simp only [State.perform] at hp
    split at hp <;> cases hp <;> exact h
  | dumpState =>
    cases hp
    exact h

end Sys2Proof.Claims

/-! PROOFS. `load` and the memory and state dumps (46_sequencer_and_host.md R217, R220, R221). -/

namespace Sys2Proof.Machine

/-! ### `load` in range -/

theorem State.load_of_backed {s : State} {start : Word} {bytes : List Byte}
    (h : ∀ i < bytes.length, s.backed (rangeAddr start i) = true) :
    s.load start bytes = (.ok (), s.placeBytes start bytes) := by
  rw [State.load, State.firstUnbacked_none.mpr h]

/-- A placed byte stands at its address, if that is backed and no later byte is placed there. -/
theorem State.placeBytes_byte_last {s : State} {a : Word} {bs : List Byte} (hwf : Memory.wf s.mem) {k : Nat}
    (hk : k < bs.length) (hb : s.backed (rangeAddr a k) = true)
    (hlast : ∀ j, k < j → j < bs.length → rangeAddr a j ≠ rangeAddr a k) :
    (s.placeBytes a bs).byte (rangeAddr a k) = bs[k] := by
  induction bs generalizing s a k with
  | nil => cases hk
  | cons v bs ih =>
    rw [List.length_cons] at hk hlast
    rw [State.placeBytes]
    cases k with
    | zero =>
      rw [rangeAddr_zero] at hb hlast ⊢
      have hother : ∀ j < bs.length, a ≠ rangeAddr (a + 1#16) j := fun j hj =>
        rangeAddr_succ a j ▸ (hlast (j + 1) (by omega) (by omega)).symm
      rw [if_pos hb, State.placeBytes_byte_other _ hother]
      exact s.setByte_byte_same a v hwf
    | succ k =>
      rw [← rangeAddr_succ] at hb hlast ⊢
      have hlater : ∀ j, k < j → j < bs.length → rangeAddr (a + 1#16) j ≠ rangeAddr (a + 1#16) k := fun j hkj hj =>
        rangeAddr_succ a j ▸ hlast (j + 1) (by omega) (by omega)
      split
      · exact ih (s := s.setByte a v) (Memory.write_wf _ _ hwf) (by omega) hb hlater
      · exact ih hwf (by omega) hb hlater

/-! ### `load` past MEM_SIZE -/

theorem State.load_of_unbacked {s : State} {start : Word} {bytes : List Byte} {n : Nat} (hn : n < bytes.length)
    (h : ∀ i < n, s.backed (rangeAddr start i) = true) (hout : s.backed (rangeAddr start n) = false) :
    s.load start bytes = (.error (oobMem (rangeAddr start n)), s.loadPartly start bytes) := by
  rw [State.load, State.firstUnbacked_first hn h hout]

/-- After a failed load a byte is the old one, or one that the load has for its address (D13). -/
theorem State.loadPartly_byte {s : State} (hwf : Memory.wf s.mem) (start : Word) (bytes : List Byte) (a : Word) :
    (s.loadPartly start bytes).byte a = s.byte a ∨
      ∃ i, ∃ h : i < bytes.length, a = rangeAddr start i ∧ (s.loadPartly start bytes).byte a = bytes[i] := by
  induction bytes generalizing s start with
  | nil => exact .inl rfl
  | cons v bytes ih =>
    rw [State.loadPartly]
    split
    next =>
      rcases ih (s := (s.setDraws (s.draws + 1)).setByte start v) (Memory.write_wf _ _ hwf) (start + 1#16) with
        hold | ⟨i, hi, ha, hv⟩
      · by_cases ha : a = start
        · subst ha
          exact .inr ⟨0, Nat.zero_lt_succ _, (rangeAddr_zero a).symm, hold.trans (State.setByte_byte_same _ a v hwf)⟩
        · exact .inl (hold.trans (State.setByte_byte_other _ v ha))
      · exact .inr ⟨i + 1, Nat.succ_lt_succ hi, rangeAddr_succ start i ▸ ha, hv⟩
    next =>
      rcases ih (s := s.setDraws (s.draws + 1)) hwf (start + 1#16) with hold | ⟨i, hi, ha, hv⟩
      · exact .inl hold
      · exact .inr ⟨i + 1, Nat.succ_lt_succ hi, rangeAddr_succ start i ▸ ha, hv⟩

/-! ### The memory dump -/

theorem State.memoryDump_of_backed {s : State} {start : Word} {n : Nat}
    (h : ∀ i < n, s.backed (rangeAddr start i) = true) :
    s.memoryDump start n = .ok ((List.range n).map (fun i => s.byte (rangeAddr start i))) := by
  rw [State.memoryDump, State.firstUnbacked_none.mpr h]

theorem State.memoryDump_of_unbacked {s : State} {start : Word} {n i : Nat} (hi : i < n)
    (hout : s.backed (rangeAddr start i) = false) : ∃ a, s.memoryDump start n = .error (oobMem a) := by
  cases hfirst : s.firstUnbacked start n with
  | none => simp [State.firstUnbacked_none.mp hfirst i hi] at hout
  | some a => exact ⟨a, by rw [State.memoryDump, hfirst]⟩

end Sys2Proof.Machine

namespace Sys2Proof.Claims

open Sys2Proof Sys2Proof.Machine

/-- Settles O56: the load is the placement of its bytes, whose frame is memory. -/
theorem loadPlacesItsBytes : Obligations.LoadPlacesItsBytes := by
  intro s start bytes hwf hb
  obtain ⟨hcfg, hg, hpc, hsp, hf, hst, hfaulted, hrecord⟩ := s.placeBytes_frame start bytes
  exact ⟨_, State.load_of_backed hb, fun i hi hlast => State.placeBytes_byte_last hwf hi (hb i hi) hlast,
    fun a ha => s.placeBytes_byte_other ha, hg, hpc, hsp, hf, hst, ⟨hfaulted, hrecord⟩, hcfg⟩

/-- Settles O57: the load writes some of its bytes, and its frame is memory and the counter of free values. -/
theorem failedLoadIsAnErrorOnly : Obligations.FailedLoadIsAnErrorOnly := by
  intro s start bytes n hwf hn hb hout
  obtain ⟨hcfg, hg, hpc, hsp, hf, hst, hfaulted, hrecord⟩ := s.loadPartly_frame start bytes
  exact ⟨_, State.load_of_unbacked hn hb (State.backed_eq_false hout), State.loadPartly_byte hwf start bytes,
    hg, hpc, hsp, hf, hst, ⟨hfaulted, hrecord⟩, hcfg⟩

/-- Settles O59: a memory dump is the list of its bytes where all are backed, else an error; the state dump is read off the
fields. -/
theorem dumpsOnlyRead : Obligations.DumpsOnlyRead := by
  intro s bound start n
  refine ⟨fun hb => ?_, ?_, s.dump, rfl, rfl, rfl, rfl, rfl, rfl, rfl, rfl, rfl, rfl, rfl, rfl, rfl, rfl⟩
  · exact ⟨_, by rw [State.perform, State.memoryDump_of_backed hb], by simp, by simp⟩
  · rintro ⟨i, hi, hout⟩
    obtain ⟨a, ha⟩ := State.memoryDump_of_unbacked hi (State.backed_eq_false hout)
    exact ⟨oobMem a, by rw [State.perform, ha], rfl⟩

end Sys2Proof.Claims

/-! PROOFS. Host access to registers and memory (46_sequencer_and_host.md R218, R219, R222). -/

namespace Sys2Proof.Machine

/-! ### Host indices (R222) -/

theorem Gpr.ofHostIndex_index (g : Gpr) : Gpr.ofHostIndex g.index.toNat = some g := by cases g <;> rfl

theorem Gpr.exists_hostIndex {i : Nat} (h : i < 6) : ∃ g : Gpr, g.index.toNat = i := by
  have hi : (BitVec.ofNat 3 i).toNat = i := Nat.mod_eq_of_lt (by omega)
  obtain ⟨g, hg⟩ := exists_index (r := BitVec.ofNat 3 i) (by omega)
  exact ⟨g, hg ▸ hi⟩

theorem Gpr.ofHostIndex_eq_none {i : Nat} (h : 6 ≤ i) : Gpr.ofHostIndex i = none := by
  obtain ⟨k, rfl⟩ := Nat.exists_eq_add_of_le' h
  rfl

/-- The host index of a special register. -/
def Spr.index : Spr → Nat
  | .PC => 0
  | .SP => 1
  | .F => 2
  | .S => 3

theorem Spr.ofIndex_index (r : Spr) : Spr.ofIndex r.index = some r := by cases r <;> rfl

theorem Spr.exists_index : ∀ {i : Nat}, i < 4 → ∃ r : Spr, r.index = i
  | 0, _ => ⟨.PC, rfl⟩
  | 1, _ => ⟨.SP, rfl⟩
  | 2, _ => ⟨.F, rfl⟩
  | 3, _ => ⟨.S, rfl⟩

theorem Spr.ofIndex_eq_none {i : Nat} (h : 4 ≤ i) : Spr.ofIndex i = none := by
  obtain ⟨k, rfl⟩ := Nat.exists_eq_add_of_le' h
  rfl

/-! ### A special register written -/

theorem State.setSpr_spr (s : State) (r q : Spr) (v : Word) :
    (s.setSpr r v).spr q = if q = r then v else s.spr q := by
  cases r <;> cases q <;> rfl

@[simp] theorem State.setSpr_mem (s : State) (r : Spr) (v : Word) : (s.setSpr r v).mem = s.mem := by cases r <;> rfl
@[simp] theorem State.setSpr_faulted (s : State) (r : Spr) (v : Word) : (s.setSpr r v).faulted = s.faulted := by
  cases r <;> rfl
@[simp] theorem State.setSpr_record (s : State) (r : Spr) (v : Word) : (s.setSpr r v).record = s.record := by
  cases r <;> rfl

/-! ### The access commands (R218, R219) -/

theorem State.perform_readGpr (s : State) (n : Nat) (g : Gpr) :
    s.perform n (.readGpr g.index.toNat) = some (.byte (s.gpr g), s) := by
  simp only [State.perform, Gpr.ofHostIndex_index]

theorem State.perform_writeGpr (s : State) (n : Nat) (g : Gpr) (v : Byte) :
    s.perform n (.writeGpr g.index.toNat v) = some (.ok, s.setGpr g v) := by
  simp only [State.perform, Gpr.ofHostIndex_index]

theorem State.perform_readGpr_bad (s : State) (n : Nat) {i : Nat} (h : 6 ≤ i) :
    s.perform n (.readGpr i) = some (.error (indexError i), s) := by
  simp only [State.perform, Gpr.ofHostIndex_eq_none h]

theorem State.perform_writeGpr_bad (s : State) (n : Nat) (v : Byte) {i : Nat} (h : 6 ≤ i) :
    s.perform n (.writeGpr i v) = some (.error (indexError i), s) := by
  simp only [State.perform, Gpr.ofHostIndex_eq_none h]

theorem State.perform_readSpr (s : State) (n : Nat) (r : Spr) :
    s.perform n (.readSpr r.index) = some (.word (s.spr r), s) := by
  simp only [State.perform, Spr.ofIndex_index]

theorem State.perform_writeSpr (s : State) (n : Nat) (r : Spr) (v : Word) :
    s.perform n (.writeSpr r.index v) = some (.ok, s.setSpr r v) := by
  simp only [State.perform, Spr.ofIndex_index]

theorem State.perform_readSpr_bad (s : State) (n : Nat) {i : Nat} (h : 4 ≤ i) :
    s.perform n (.readSpr i) = some (.error (indexError i), s) := by
  simp only [State.perform, Spr.ofIndex_eq_none h]

theorem State.perform_writeSpr_bad (s : State) (n : Nat) (v : Word) {i : Nat} (h : 4 ≤ i) :
    s.perform n (.writeSpr i v) = some (.error (indexError i), s) := by
  simp only [State.perform, Spr.ofIndex_eq_none h]

/-- A write of a special register is not seen in what any other index reads as, a bad one included. -/
theorem State.perform_readSpr_setSpr_other (s : State) (n : Nat) {r : Spr} {j : Nat} (v : Word) (h : j ≠ r.index) :
    ((s.setSpr r v).perform n (.readSpr j)).map Prod.fst = (s.perform n (.readSpr j)).map Prod.fst := by
  by_cases hj : j < 4
  · obtain ⟨q, rfl⟩ := Spr.exists_index hj
    have hq : q ≠ r := fun e => h (congrArg Spr.index e)
    simp [State.perform_readSpr, State.setSpr_spr, hq]
  · simp [State.perform_readSpr_bad _ n (Nat.le_of_not_lt hj)]

end Sys2Proof.Machine

namespace Sys2Proof.Claims

open Sys2Proof Sys2Proof.Machine

/-- Settles O58: each index names a register or none and each address is backed or not, and a write changes one location. -/
theorem hostAccessReadsWhatItWrote : Obligations.HostAccessReadsWhatItWrote := by
  intro s n i v w a hwf
  refine ⟨⟨rfl, rfl, rfl, rfl⟩, ⟨rfl, rfl, rfl, rfl, rfl, rfl⟩, fun hi => ?_, fun hi => ?_, fun ha => ?_,
    fun hi => ⟨s.perform_writeGpr_bad n v hi, s.perform_readGpr_bad n hi⟩,
    fun hi => ⟨s.perform_writeSpr_bad n w hi, s.perform_readSpr_bad n hi⟩, fun ha => ?_⟩
  · obtain ⟨g, rfl⟩ := Gpr.exists_hostIndex hi
    refine ⟨_, g, s.perform_writeGpr n g v, ?_, rfl, changesOnlyGpr_setGpr s g v⟩
    rw [State.perform_readGpr, State.setGpr_gpr_same]
  · obtain ⟨r, rfl⟩ := Spr.exists_index hi
    refine ⟨_, s.perform_writeSpr n r w, ?_, fun j hj => s.perform_readSpr_setSpr_other n w hj, s.setSpr_gpr r w,
      s.setSpr_mem r w, s.setSpr_faulted r w, s.setSpr_record r w⟩
    rw [State.perform_readSpr, State.setSpr_spr, if_pos rfl]
  · have hb := State.backed_eq_true ha
    refine ⟨s.setByte a v, by rw [State.perform, if_pos hb], ?_, fun b hne => s.setByte_byte_other v hne,
      s.setByte_gpr a v, rfl, rfl, rfl, rfl, rfl, rfl⟩
    rw [State.perform, State.setByte_backed, if_pos hb, State.setByte_byte_same s a v hwf]
  · have hb := State.backed_eq_false ha
    exact ⟨by simp [State.perform, hb, oobMem], by simp [State.perform, hb, oobMem]⟩

end Sys2Proof.Claims

/-! PROOFS. A step that faults (60_exceptions.md R246, R247): the instruction it stands for, what the rule of an opcode
writes, and the record it leaves (R241, R242). -/

namespace Sys2Proof.Machine

open Sys2Proof.Claims

/-! ### What the rule of an opcode writes -/

/-- The operation of an instruction. -/
def Instr.opcode : Instr → Opcode
  | .nop => .nop
  | .movImm _ _ | .movReg _ _ => .mov
  | .ldrAbs _ _ | .ldrHl _ => .ldr
  | .strAbs _ _ | .strHl _ => .str
  | .lhl _ _ => .lhl
  | .pushImm _ | .pushReg _ => .push
  | .pop _ => .pop
  | .jmpAbs _ | .jmpHl => .jmp
  | .jzAbs _ | .jzHl => .jz
  | .addImm _ _ | .addReg _ _ => .add
  | .adcImm _ _ | .adcReg _ _ => .adc
  | .cmpImm _ _ | .cmpReg _ _ => .cmp
  | .subImm _ _ | .subReg _ _ => .sub
  | .nandImm _ _ | .nandReg _ _ => .nand
  | .norImm _ _ | .norReg _ _ => .nor
  | .hlt => .hlt

theorem decodeFields_opcode (op b1 b2 : Byte) :
    Instr.opcode (decodeFields op b1 b2) = Opcode.ofBits (opcodeField op) := by
  unfold decodeFields
  cases Opcode.ofBits (opcodeField op) <;> cases modeField op <;> rfl

theorem Instr.opcode_of_writes_sp {i : Instr} {s : State} (h : Loc.sp ∈ Instr.writes i s) :
    Instr.opcode i = .push ∨ Instr.opcode i = .pop := by
  rcases Instr.of_writes_sp h with ⟨v, rfl⟩ | ⟨r, rfl⟩ | ⟨r, rfl⟩ <;> simp [Instr.opcode]

theorem Instr.opcode_of_writes_zero {i : Instr} {s : State} (h : Loc.zero ∈ Instr.writes i s) :
    Instr.opcode i = .cmp := by
  rcases Instr.of_writes_zero h with ⟨r, v, rfl⟩ | ⟨r, k, rfl⟩ <;> rfl

theorem Instr.opcode_of_writes_carry {i : Instr} {s : State} (h : Loc.carry ∈ Instr.writes i s) :
    Instr.opcode i = .add ∨ Instr.opcode i = .adc := by
  rcases Instr.of_writes_carry h with ⟨r, v, rfl⟩ | ⟨r, k, rfl⟩ | ⟨r, v, rfl⟩ | ⟨r, k, rfl⟩ <;> simp [Instr.opcode]

theorem Instr.opcode_of_writes_halt {i : Instr} {s : State} (h : Loc.halt ∈ Instr.writes i s) :
    Instr.opcode i = .hlt := by
  cases Instr.of_writes_halt h
  rfl

/-- A register that a decoded instruction writes is the one of its r field, or L or H for LHL (10_state.md R22). -/
theorem decodeFields_writes_gpr {op b1 b2 : Byte} {s : State} {r : RegIx} :
    Loc.gpr r ∈ Instr.writes (decodeFields op b1 b2) s →
    let o := Opcode.ofBits (opcodeField op)
    (r = regField op ∧
        (o = .mov ∨ o = .ldr ∨ o = .pop ∨ o = .add ∨ o = .adc ∨ o = .sub ∨ o = .nand ∨ o = .nor)) ∨
      ((r = Gpr.L.index ∨ r = Gpr.H.index) ∧ o = .lhl) := by
  unfold decodeFields
  cases Opcode.ofBits (opcodeField op) <;> cases modeField op <;> simp [Instr.writes, Gpr.index]

/-- A byte that a decoded instruction stores to is the one at EA for STR, the one at the decremented SP for PUSH
(40_execution_model.md R114, 42_stack.md R150). -/
theorem decodeFields_writes_mem {op b1 b2 : Byte} {s : State} {a : Word} :
    Loc.mem a ∈ Instr.writes (decodeFields op b1 b2) s →
    let o := Opcode.ofBits (opcodeField op)
    (o = .str ∧ a = s.ea (if modeField op then .hl else .abs (wordOfBytes b1 b2))) ∨
      (o = .push ∧ Loc.mem a ∈ s.pushLoc) := by
  unfold decodeFields
  cases Opcode.ofBits (opcodeField op) <;> cases modeField op <;> simp [Instr.writes]

/-! ### The instruction of a step -/

/-- Where all bytes are fetched, no free byte stands in the instruction of the step. -/
theorem instrOfStep_fetched {s t : State} {operands : List Byte}
    (hb : s.fetchByte = .ok (s.byte s.pc, s.setPc (s.pc + 1#16)))
    (h : State.fetchBytes (operandCount (s.byte s.pc)) (s.setPc (s.pc + 1#16)) = (operands, .ok t)) :
    instrOfStep s = decodeFields (s.byte s.pc) (operands.getD 0 0) (operands.getD 1 0) := by
  have hread : operandsRead s = operands := by simp only [operandsRead, hb, h]
  simp only [instrOfStep, operandOfStep, hread]
  exact decodeFields_default _ (State.fetchBytes_length h) ..

/-- `Execute1()` said by what it reads: no opcode byte; a byte and the operand bytes before the fetch fails; or all of the
instruction of the step, which it runs. -/
theorem State.execute1_cases_read (s : State) :
    (s.backed s.pc = false ∧ s.execute1 = .next (s.faultInFetch [] (oobMem s.pc))) ∨
    (s.backed s.pc = true ∧ ∃ e, MissingMemory s.cfg e ∧
      s.execute1 = .next (s.faultInFetch (s.byte s.pc :: operandsRead s) e)) ∨
    (s.backed s.pc = true ∧
      s.execute1 = exec (instrOfStep s) (s.setPc (s.pc + BitVec.ofNat 16 (instrOfStep s).length))) := by
  rcases s.fetchByte_cases with ⟨hb, h⟩ | ⟨hb, h⟩ | ⟨hb, -, -, h⟩
  · rcases hf : State.fetchBytes (operandCount (s.byte s.pc)) (s.setPc (s.pc + 1#16)) with ⟨bs, (e | u)⟩
    · refine .inr (.inl ⟨hb, e, State.fetchBytes_error (s := s.setPc (s.pc + 1#16)) hf, ?_⟩)
      simp only [State.execute1, operandsRead, h, hf]
    · obtain rfl := State.fetchBytes_next hf
      have hi := instrOfStep_fetched h hf
      refine .inr (.inr ⟨hb, ?_⟩)
      simp only [State.execute1, h, hf, hi, decodeFields_length, State.setPc_setPc, State.setPc_pc, add_ofNat_succ,
        Nat.add_comm]
  · have hseen : s.seenByte = [] := if_neg (by simp [hb])
    exact .inl ⟨hb, by simp only [State.execute1, h, hseen]⟩
  · have hseen : s.seenByte = [s.byte s.pc] := if_pos hb
    exact .inr (.inl ⟨hb, _, State.fetchByte_error h, by simp only [State.execute1, operandsRead, h, hseen]⟩)

/-- What a rule writes does not depend on PC, so it is the same past the instruction's bytes. -/
theorem Instr.writes_setPc (i : Instr) (s : State) (p : Word) : Instr.writes i (s.setPc p) = Instr.writes i s := by
  cases i <;> rfl

theorem Loc.Same.of_setPc {s t : State} {p : Word} {loc : Loc} (h : Loc.Same (s.setPc p) t loc) (hl : loc ≠ .pc) :
    Loc.Same s t loc := by
  cases loc with
  | pc => exact absurd rfl hl
  | gpr r => exact fun g hg => (h g hg).trans (s.setPc_gpr p g)
  | _ => exact h

theorem Instr.pc_mem_writes (i : Instr) (s : State) : Loc.pc ∈ Instr.writes i s := by
  cases i <;> simp [Instr.writes]

/-- A step, completing or faulting, leaves every location that the rule of its instruction does not write. -/
theorem step_same {s t : State} (hrun : s.Runnable) (h : step s = .next t) {loc : Loc}
    (hl : loc ∉ Instr.writes (instrOfStep s) s) : Loc.Same s t loc := by
  have hpc : loc ≠ .pc := fun hp => hl (hp ▸ Instr.pc_mem_writes _ s)
  rw [step_runnable hrun] at h
  rcases s.execute1_cases_read with ⟨-, he⟩ | ⟨-, e, -, he⟩ | ⟨-, he⟩ <;> rw [he] at h
  · cases h
    exact s.faultInFetch_same [] _ (by simpa [fetchFaultWrites] using hpc)
  · cases h
    exact s.faultInFetch_same _ e hl
  · exact ((exec_frame h).2 loc (by rwa [Instr.writes_setPc])).of_setPc hpc

/-- A step leaves every byte but the one at EA for STR and the one at the decremented SP for PUSH. -/
theorem step_byte_same {s t : State} (hrun : s.Runnable) (h : step s = .next t) {a : Word}
    (hstr : Opcode.ofBits (opcodeField (s.byte s.pc)) = .str →
      a ≠ s.ea (if modeField (s.byte s.pc) then .hl else .abs (wordOfBytes (operandOfStep s 0) (operandOfStep s 1))))
    (hpush : Opcode.ofBits (opcodeField (s.byte s.pc)) = .push → Loc.mem a ∉ s.pushLoc) : t.byte a = s.byte a := by
  refine step_same (loc := .mem a) hrun h fun hw => ?_
  rcases decodeFields_writes_mem hw with ⟨ho, ha⟩ | ⟨ho, ha⟩
  · exact hstr ho ha
  · exact hpush ho ha

/-- Where the opcode byte cannot be read, a step leaves every location but PC. -/
theorem step_unbacked_same {s t : State} (hrun : s.Runnable) (h : step s = .next t) (hb : s.backed s.pc = false)
    {loc : Loc} (hl : loc ≠ .pc) : Loc.Same s t loc := by
  have he : s.execute1 = .next (s.faultInFetch [] (oobMem s.pc)) := by
    rcases s.execute1_cases_read with ⟨-, he⟩ | ⟨hb', -⟩ | ⟨hb', -⟩
    · exact he
    all_goals simp [hb] at hb'
  rw [step_runnable hrun, he] at h
  cases h
  exact s.faultInFetch_same [] _ (by simpa [fetchFaultWrites] using hl)

/-! ### The record of a step -/

/-- The record of an instruction that enters the fault state is that of an error its effect raised. -/
theorem exec_faultState {i : Instr} {s t : State} (h : exec i s = .next t) (hs : s.faulted = false)
    (ht : t.faulted = true) :
    ∃ e, effect i s = .error e ∧ FaultState t e (startOf i s) ∧ KeepsMemory s t := by
  obtain ⟨e, he, -⟩ := effect_error_of_faulted h hs ht
  obtain ⟨u, hu, hfault⟩ := exec_of_effect_error he
  cases h.symm.trans hu
  exact ⟨e, he, hfault⟩

/-- A step that enters the fault state raised an error that names a missing register or a missing address, and its fault_pc
is the address of the instruction. -/
theorem step_faultState {s t : State} (hrun : s.Runnable) (h : step s = .next t) (ht : t.faulted = true) :
    ∃ e, ((∃ r, MissingRegister r e) ∨ MissingMemory s.cfg e) ∧ FaultState t e s.pc := by
  rw [step_runnable hrun] at h
  rcases s.execute1_cases_read with ⟨hb, he⟩ | ⟨-, e, hm, he⟩ | ⟨-, he⟩ <;> rw [he] at h
  · cases h
    exact ⟨_, .inr (State.fetchByte_error (State.fetchByte_unbacked hb)), faultState_faultInFetch ..⟩
  · cases h
    exact ⟨e, .inr hm, faultState_faultInFetch ..⟩
  · obtain ⟨e, heff, hfault, -⟩ := exec_faultState h hrun.1 ht
    rw [startOf, State.setPc_pc, BitVec.add_sub_cancel] at hfault
    exact ⟨e, (effect_error heff).imp (fun ⟨r, _, hr⟩ => ⟨r, hr⟩) id, hfault⟩

/-- With all of memory backed and wrapping advances no memory fault exists (60_exceptions.md R242). -/
theorem not_missingMemory_standard {e : OutOfBounds} : ¬ MissingMemory Config.standard e := by
  rintro (⟨a, ha, -⟩ | ⟨hf, -⟩)
  · exact absurd a.isLt (Nat.not_lt.mpr ha)
  · cases hf

end Sys2Proof.Machine

namespace Sys2Proof.Claims

open Sys2Proof Sys2Proof.Machine

/-- Settles O18: a step leaves what the rule of its instruction does not write, and each location a rule writes belongs to
the opcodes named for it. -/
theorem faultKeepsWhatTheRuleDoesNotWrite : Obligations.FaultKeepsWhatTheRuleDoesNotWrite := by
  intro s t hrun hstep ht o m r
  have hsame := fun loc => step_same (loc := loc) hrun hstep
  have hop : Instr.opcode (instrOfStep s) = o := decodeFields_opcode ..
  obtain ⟨e, -, -, -, -, hpc⟩ := step_faultState hrun hstep ht
  refine ⟨hpc, step_storage hstep, hsame, fun hb loc => step_unbacked_same hrun hstep hb, fun hfetch => ?_,
    fun hpush hpop => ?_, fun g => ?_, fun hcmp => ?_, fun hadd hadc => ?_, fun hhlt => ?_, fun hstr hpush a => ?_,
    fun ho hm a ha => ?_, fun ho hm a ha => ?_, fun ho a ha => ?_⟩
  · rw [Nat.add_comm] at hfetch
    rw [step_runnable hrun, State.execute1_fetchable hfetch] at hstep
    obtain ⟨-, -, -, hkeeps⟩ := exec_faultState hstep hrun.1 ht
    exact hkeeps
  · exact hsame .sp fun hw => (hop ▸ Instr.opcode_of_writes_sp hw).elim hpush hpop
  · by_cases hw : Loc.gpr g.index ∈ Instr.writes (instrOfStep s) s
    · exact .inr ((decodeFields_writes_gpr hw).imp id (And.imp_left (.imp Gpr.index_inj Gpr.index_inj)))
    · exact .inl (hsame _ hw g rfl)
  · exact hsame .zero fun hw => hcmp (hop ▸ Instr.opcode_of_writes_zero hw)
  · exact hsame .carry fun hw => (hop ▸ Instr.opcode_of_writes_carry hw).elim hadd hadc
  · exact hsame .halt fun hw => hhlt (hop ▸ Instr.opcode_of_writes_halt hw)
  · exact step_byte_same hrun hstep (fun ho => absurd ho hstr) fun ho => absurd ho hpush
  · exact step_byte_same hrun hstep (fun _ => by rwa [if_pos hm]) fun hp => nomatch ho.symm.trans hp
  · exact step_byte_same hrun hstep (fun _ => by rwa [if_neg (Bool.eq_false_iff.mp hm)])
      fun hp => nomatch ho.symm.trans hp
  · exact step_byte_same hrun hstep (fun hp => nomatch ho.symm.trans hp) fun _ => ha

/-- Settles O43: an error names a missing register or a missing address, of which this configuration has none. -/
theorem fullMemoryLeavesOnlyRegisterFaults : Obligations.FullMemoryLeavesOnlyRegisterFaults := by
  intro s t hcfg hrun hstep ht
  obtain ⟨e, ⟨r, hr⟩ | hm, -, hcause, hinfo, -⟩ := step_faultState hrun hstep ht
  · obtain ⟨hmissing, rfl⟩ := hr
    refine ⟨hcause, ?_⟩
    simp only [hinfo, oobReg]
    omega
  · exact absurd (hcfg ▸ hm) not_missingMemory_standard

end Sys2Proof.Claims

/-! PROOFS. Every step ends, with at most four accesses (70_reset_and_hazards.md R279), and only RESET leaves the faulted
state (60_exceptions.md R250, 70_reset_and_hazards.md R270). -/

namespace Sys2Proof.Machine

open Sys2Proof.Claims

/-! ### The number of accesses -/

theorem State.fetchAccesses_length_le (n : Nat) (s : State) : (s.fetchAccesses n).length ≤ n := by
  induction n generalizing s with
  | zero => exact le_rfl
  | succ n ih =>
    rw [State.fetchAccesses, List.length_cons]
    cases s.fetchByte with
    | error e => exact Nat.succ_le_succ (Nat.zero_le n)
    | ok p => exact Nat.succ_le_succ (ih p.2)

theorem storeAccess_length_le (a : Word) (v : Except OutOfBounds Byte) : (storeAccess a v).length ≤ 1 := by
  cases v <;> simp [storeAccess]

theorem State.pushAccess_length_le (s : State) (src : Source) : (s.pushAccess src).length ≤ 1 := by
  unfold State.pushAccess
  split <;> simp

/-- An instruction makes at most one data or stack access (20_memory.md R55). -/
theorem Instr.dataAccess_length_le (i : Instr) (s : State) : (Instr.dataAccess i s).length ≤ 1 := by
  cases i with
  | strAbs | strHl => exact storeAccess_length_le ..
  | pushImm | pushReg => exact s.pushAccess_length_le _
  | _ => simp [Instr.dataAccess]

/-- An opcode byte, at most two operand bytes and at most one data access. -/
theorem State.accesses_length_le (s : State) : s.accesses.length ≤ 4 := by
  unfold State.accesses
  split
  · simp
  · rw [List.length_cons]
    cases s.fetchByte with
    | error e => simp
    | ok p =>
      have hfetch := State.fetchAccesses_length_le (operandCount p.1) p.2
      have hcount : operandCount p.1 ≤ 2 := operandBytes_le_two ..
      rw [List.length_append]
      split
      next =>
        rw [List.length_nil]
        omega
      next operands u _ =>
        have hdata := Instr.dataAccess_length_le (decodeFields p.1 (operands.getD 0 0) (operands.getD 1 0)) u
        omega

theorem step_total {s : State} (hf : s.faulted = false) : ∃ t, step s = .next t := by
  obtain ⟨t, hstep, -⟩ := State.stepReply_next hf
  exact ⟨t, hstep⟩

/-! ### The commands on a faulted core -/

theorem State.perform_step_faulted {s : State} (bound : Nat) (h : s.faulted = true) :
    s.perform bound .step = some (.fault s.record, s) := by
  simp only [State.perform, State.stepReply_faulted h]

theorem State.perform_run_faulted {s : State} (bound : Nat) (h : s.faulted = true) :
    s.perform bound .run = some (.fault s.record, s) := by
  simp only [State.perform, State.run_faulted bound h]

theorem State.load_keepsLatch {s t : State} {start : Word} {bytes : List Byte} {answer : Except OutOfBounds Unit}
    (h : s.load start bytes = (answer, t)) : KeepsLatch s t := by
  unfold State.load at h
  split at h <;> cases h
  · obtain ⟨-, -, -, -, -, -, hf, hr⟩ := s.loadPartly_frame start bytes
    exact ⟨hf, hr⟩
  · obtain ⟨-, -, -, -, -, -, hf, hr⟩ := s.placeBytes_frame start bytes
    exact ⟨hf, hr⟩

/-- On a faulted core every command but RESET keeps FAULTED and the record (60_exceptions.md R250). -/
theorem State.perform_keepsLatch {bound : Nat} {c : Command} {s t : State} {r : Reply} (hf : s.faulted = true)
    (hc : c ≠ .reset) (h : s.perform bound c = some (r, t)) : KeepsLatch s t := by
  cases c with
  | reset => exact absurd rfl hc
  | step =>
    cases (State.perform_step_faulted bound hf).symm.trans h
    exact ⟨rfl, rfl⟩
  | run =>
    cases (State.perform_run_faulted bound hf).symm.trans h
    exact ⟨rfl, rfl⟩
  | writeGpr i v =>
    simp only [State.perform] at h
    split at h <;> cases h
    · exact ⟨s.setGpr_faulted _ v, s.setGpr_record _ v⟩
    · exact ⟨rfl, rfl⟩
  | writeSpr i v =>
    simp only [State.perform] at h
    split at h <;> cases h
    · exact ⟨s.setSpr_faulted _ v, s.setSpr_record _ v⟩
    · exact ⟨rfl, rfl⟩
  | load start bytes =>
    simp only [State.perform] at h
    split at h <;> cases h <;> exact State.load_keepsLatch ‹_›
  | writeMem | readGpr | readSpr | readMem | dump =>
    simp only [State.perform] at h
    split at h <;> cases h <;> exact ⟨rfl, rfl⟩
  | dumpState =>
    cases h
    exact ⟨rfl, rfl⟩

end Sys2Proof.Machine

namespace Sys2Proof.Claims

open Sys2Proof Sys2Proof.Machine

/-- Settles O14: `Execute1()` answers a next state in each of its cases, and its accesses are the opcode fetch, at most two
operand fetches and at most one data access. -/
theorem everyStepTerminates : Obligations.EveryStepTerminates :=
  fun s => ⟨step_total, s.accesses_length_le⟩

/-- Settles O60: STEP and RUN answer the record, the other commands but RESET do not write the latch, and RESET gives the
construction state. -/
theorem onlyResetLeavesTheFaultedState : Obligations.OnlyResetLeavesTheFaultedState := by
  intro s t bound c r
  refine ⟨fun hf => ⟨State.perform_step_faulted bound hf, State.perform_run_faulted bound hf⟩, fun hf hc h => ?_,
    s.resetCommand, rfl, rfl⟩
  obtain ⟨hfaulted, hrecord⟩ := State.perform_keepsLatch hf hc h
  exact ⟨hfaulted.trans hf, hrecord⟩

end Sys2Proof.Claims
